-- ==== Sys2Proof/Word.lean ====
section
/-! DEFINITION. The two word types of the LS-8 core (00_scope.md R8, R11, R15). -/

namespace Sys2Proof

/-- A register, a memory cell, an opcode byte or an operand byte: 8 bits, unsigned (R7, R8, R15). -/
abbrev Byte := BitVec 8

/-- The program counter: 9 bits, so that it can hold 256 (00_scope.md R11, 10_state.md R25). -/
abbrev PcWord := BitVec 9

end Sys2Proof
end

