-- ==== Sys2Proof/Config.lean ====
section
/-! DEFINITION. The parameters of 00_scope.md R7 to R10, at the values this hardware takes. The opcode
assignment OPC (R12) is `Sys2Proof.opc` in Decode.lean. The spec leaves no value open, so there is no free value. -/

namespace Sys2Proof

/-- MEM_SIZE: memory is 256 cells, addresses 0 to 255 (R7). -/
abbrev Config.memSize : Nat := 256

/-- NREG: eight general registers (R8). -/
abbrev Config.numRegs : Nat := 8

/-- SP_INDEX: the stack pointer is register 7 (R9). -/
abbrev Config.spIndex : Fin 8 := 7

/-- SP_RESET: the stack pointer's reset value (R9; 90_conflicts.md C8: the literal wins). -/
abbrev Config.spReset : Byte := 0xF4#8

/-- PC_RESET: execution begins at address 0 (R10). -/
abbrev Config.pcReset : PcWord := 0#9

end Sys2Proof
end

