-- ==== Sys2Proof/Machine/State.lean ====
section
/-! DEFINITION. The architectural state of the core, whole (10_state.md R20), the reasons a step stops, and the state
after reset (R109). -/

namespace Sys2Proof.Machine

/-- The eight general registers (R21); `r7` is the stack pointer (R23). None is hardwired (R22). -/
structure RegFile where
  r0 : Byte
  r1 : Byte
  r2 : Byte
  r3 : Byte
  r4 : Byte
  r5 : Byte
  r6 : Byte
  r7 : Byte
deriving DecidableEq, Repr

/-- The comparison flags: three independent bits with no packed layout (R27, R29). -/
structure Flags where
  e : Bool
  g : Bool
  l : Bool
deriving DecidableEq, Repr

/-- A fault cause with the info R92 records for it. The numeric codes are `Cause.code`. -/
inductive Cause where
  /-- Code 1: the fetched byte is no opcode (R93). -/
  | illegalOpcode (b : Byte)
  /-- Code 2: a fetch past the last cell, or CALL's return address 256 (R96). -/
  | addressOutOfBounds (a : Nat)
  /-- Code 3: a register operand byte of 8 or more (R97). -/
  | registerIndexOutOfBounds (b : Byte)
  /-- Code 4: reserved for the source's taxonomy, never raised (R98). -/
  | aluOpUnknown
deriving DecidableEq, Repr

/-- The run state (R30). `faulted cause atPc` is the spec's Faulted(cause, info, at). -/
inductive Run where
  | running
  | halted
  | faulted (cause : Cause) (atPc : PcWord)
deriving DecidableEq, Repr

/-- The 256 cells as a canonical list (`Memory.wf` in Ops.lean): addresses strictly rising, no entry that holds 0x00,
which is what an unlisted cell reads as (the reset contents, R37, R56). -/
abbrev Memory := List Host.Cell

/-- The complete architectural state (R20). -/
structure State where
  regs : RegFile
  pc : PcWord
  flags : Flags
  run : Run
  out : List Byte
  mem : Memory
deriving DecidableEq, Repr

/-- Why the machine makes no step. The spec's own faults are NOT here: raising one is a next state whose `run` is
`faulted` (R95). -/
inductive Fault where
  /-- Raised by `step` in the run state Halted, from which no step exists (R30, R67; 93 U22 "stuck"). Safe. -/
  | noStepHalted
  /-- Raised by `step` in the run state Faulted, from which no step exists (R30, R101; 93 U22 "stuck"). Safe. -/
  | noStepFaulted
deriving DecidableEq, Repr

/-- What the model gives no meaning to. -/
inductive Refusal where
  /-- An instruction without a meaning, raised by `exec`'s arm for it. No arm does so. Safe. -/
  | notModelled (mnemonic : String)
  /-- Raised by `State.launch` for a program image of `n` > 256 bytes, which breaks the launch preconditions
  (R111; 93 U21 "refuse"). Safe. -/
  | imageTooLong (n : Nat)
deriving DecidableEq, Repr

/-- The state after reset (R109): registers R35, pc and run and OUT R36, flags R34, memory R37. -/
def State.reset : State where
  regs := { r0 := 0#8, r1 := 0#8, r2 := 0#8, r3 := 0#8, r4 := 0#8, r5 := 0#8, r6 := 0#8, r7 := Config.spReset }
  pc := Config.pcReset
  flags := { e := false, g := false, l := false }
  run := .running
  out := []
  mem := []

end Sys2Proof.Machine
end

