-- ==== Sys2Proof/Machine/Ops.lean ====
section
/-! DEFINITION. The named operations over registers, memory, pc, output and run state that every instruction rule is
written with (00_scope.md R17), raising a fault among them (R95). There is no return from a fault to model (R101). -/

namespace Sys2Proof.Machine

/-- `x[i]`: the read of general register `i` (R16, R22). -/
def RegFile.get (rf : RegFile) (i : Fin 8) : Byte :=
  match i with
  | 0 => rf.r0
  | 1 => rf.r1
  | 2 => rf.r2
  | 3 => rf.r3
  | 4 => rf.r4
  | 5 => rf.r5
  | 6 => rf.r6
  | 7 => rf.r7

/-- `x[i] <- v`: the write of general register `i` (R16, R22). -/
def RegFile.set (rf : RegFile) (i : Fin 8) (v : Byte) : RegFile :=
  match i with
  | 0 => { rf with r0 := v }
  | 1 => { rf with r1 := v }
  | 2 => { rf with r2 := v }
  | 3 => { rf with r3 := v }
  | 4 => { rf with r4 := v }
  | 5 => { rf with r5 := v }
  | 6 => { rf with r6 := v }
  | 7 => { rf with r7 := v }

/-- The byte at address `a`: the listed one, 0x00 where none is listed (R37, R56). -/
def Memory.get : Memory → Nat → Byte
  | [], _ => 0#8
  | c :: m, a => if c.1 = a then c.2 else Memory.get m a

/-- Memory without an entry for `a`. -/
def Memory.erase (m : Memory) (a : Nat) : Memory := m.filter (fun c => c.1 != a)

/-- A new entry put before the first higher address. -/
def Memory.insert : Memory → Nat → Byte → Memory
  | [], a, v => [(a, v)]
  | c :: m, a, v => if a < c.1 then (a, v) :: c :: m else c :: Memory.insert m a v

/-- `M[a] <- v`: the old entry goes, and 0x00 is written by listing nothing, so that equal memories are equal lists. -/
def Memory.set (m : Memory) (a : Nat) (v : Byte) : Memory :=
  if v = 0#8 then Memory.erase m a else Memory.insert (Memory.erase m a) a v

/-- The canonical form: addresses strictly rising, every listed address a cell of the 256, no listed 0x00. -/
abbrev Memory.wf (m : Memory) : Prop :=
  m.Pairwise (fun c d => c.1 < d.1) ∧ ∀ c ∈ m, c.1 < Config.memSize ∧ c.2 ≠ 0#8

/-- `x[i]` in a state. -/
def State.reg (s : State) (i : Fin 8) : Byte := s.regs.get i

/-- `x[i] <- v` in a state. -/
def State.setReg (s : State) (i : Fin 8) (v : Byte) : State := { s with regs := s.regs.set i v }

/-- SP, another name of `x[7]` (R23, R86). -/
def State.sp (s : State) : Byte := s.reg Config.spIndex

/-- `M[a]`, a cell used directly (R16). -/
def State.byteAt (s : State) (a : Nat) : Byte := Memory.get s.mem a

/-- `M[a] <- v`, a cell used directly (R16). -/
def State.setByte (s : State) (a : Nat) (v : Byte) : State := { s with mem := Memory.set s.mem a v }

/-- `MemRead(a, 1)`: bounds first, no side effect (R40). -/
def State.memRead (s : State) (a : Nat) : Except Cause Byte :=
  if Config.memSize ≤ a then .error (.addressOutOfBounds a) else .ok (s.byteAt a)

/-- `MemWrite(a, 1, v)`: bounds first, then exactly one cell changes (R41). -/
def State.memWrite (s : State) (a : Nat) (v : Byte) : Except Cause State :=
  if Config.memSize ≤ a then .error (.addressOutOfBounds a) else .ok (s.setByte a v)

/-- `pc <- t`. -/
def State.setPc (s : State) (t : PcWord) : State := { s with pc := t }

/-- The default advance `pc <- p + n` in 9 bits, `n` the instruction's length (R26, R81). -/
def State.advance (s : State) (n : Nat) : State := s.setPc (s.pc + BitVec.ofNat 9 n)

/-- `pc <- zext_9(t)`: a control transfer to an 8-bit target (R82). -/
def State.jumpTo (s : State) (t : Byte) : State := s.setPc (t.setWidth 9)

/-- `Out(v)`: one byte emitted, after all earlier ones (R31, R76). -/
def State.emit (s : State) (v : Byte) : State := { s with out := s.out ++ [v] }

/-- `run <- Halted` (R30, R74). -/
def State.halt (s : State) : State := { s with run := .halted }

/-- `raise X(info)`: the one way into Faulted; `at` is the pc, which still holds the address of the opcode byte, and
nothing else is written (R95). -/
def State.raise (s : State) (c : Cause) : State := { s with run := .faulted c s.pc }

/-- How a step of the spec's pseudocode ends: the state its statements reached, or, where a statement raised, the
fault taken in the state the instruction STARTED from (R17: raise abandons the instruction with no architectural write
performed by it; R102). -/
def State.settle (s : State) (r : Except Cause State) : Host.Outcome State Fault Refusal :=
  match r with
  | .ok t => .next t
  | .error c => .next (s.raise c)

/-- The decrement of SP modulo 256 (R86). -/
def State.decSp (s : State) : State := s.setReg Config.spIndex (s.sp - 1#8)

/-- The increment of SP modulo 256 (R86). -/
def State.incSp (s : State) : State := s.setReg Config.spIndex (s.sp + 1#8)

/-- `push_byte(v)`: decrement, then store at the new SP (R86). -/
def State.pushByte (s : State) (v : Byte) : Except Cause State := s.decSp.memWrite s.decSp.sp.toNat v

/-- The load half of `pop_byte()`, whose increment is `State.incSp` (R86): the byte at SP. -/
def State.popLoad (s : State) : Except Cause Byte := s.memRead s.sp.toNat

/-- The cause codes of R92. -/
def Cause.code : Cause → Nat
  | .illegalOpcode _ => 1
  | .addressOutOfBounds _ => 2
  | .registerIndexOutOfBounds _ => 3
  | .aluOpUnknown => 4

/-- The info of R92, none for AluOpUnknown. -/
def Cause.info : Cause → Option Nat
  | .illegalOpcode b => some b.toNat
  | .addressOutOfBounds a => some a
  | .registerIndexOutOfBounds b => some b.toNat
  | .aluOpUnknown => none

end Sys2Proof.Machine
end

