-- ==== Sys2Proof/Machine/Flags.lean ====
section
/-! DEFINITION. The one flag computation of the hardware, CMP's (R28, R80). -/

namespace Sys2Proof.Machine

/-- E, G, L from the order of two bytes as natural numbers: all three computed anew (R80; 90_conflicts.md C2, C3). -/
def compareFlags (u v : Byte) : Flags where
  e := decide (u.toNat = v.toNat)
  g := decide (u.toNat > v.toNat)
  l := decide (u.toNat < v.toNat)

/-- The flags written whole. -/
def State.setFlags (s : State) (f : Flags) : State := { s with flags := f }

end Sys2Proof.Machine
end

