-- ==== Sys2Proof/Machine/Operands.lean ====
section
/-! DEFINITION. The operand forms: a register operand byte (R62), stage 4 of the step (R67). The immediate of LDI is
its operand byte as it stands (R63) and needs no operation. -/

namespace Sys2Proof.Machine

/-- `RegIdx(b)`: the whole byte is the index; 8 or more raises, with no masking (R62, R97). -/
def regIdx (b : Byte) : Except Cause (Fin 8) :=
  if h : b.toNat < 8 then .ok ⟨b.toNat, h⟩ else .error (.registerIndexOutOfBounds b)

/-- An instruction of format R or RI: its register operand is validated, then its rule runs (R67 stages 4 and 5). -/
def State.withReg (s : State) (op1 : Byte) (rule : Fin 8 → Except Cause State) :
    Host.Outcome State Fault Refusal :=
  s.settle (match regIdx op1 with
    | .error c => .error c
    | .ok r => rule r)

/-- An instruction of format RR: both register operands are validated, the first one first (R67, R100), then its rule
runs. -/
def State.withRegs (s : State) (op1 op2 : Byte) (rule : Fin 8 → Fin 8 → Except Cause State) :
    Host.Outcome State Fault Refusal :=
  s.settle (match regIdx op1 with
    | .error c => .error c
    | .ok a =>
      match regIdx op2 with
      | .error c => .error c
      | .ok b => rule a b)

end Sys2Proof.Machine
end

