-- ==== Sys2Proof/Machine/Alu.lean ====
section
/-! DEFINITION. The ALU block and MUL, ADD, CMP (41_alu.md). -/

namespace Sys2Proof.Machine

/-- The ALU's operation input, a closed set of three, so AluOpUnknown is unreachable (R77, R98). -/
inductive AluOp where
  | mul | add | cmp
deriving DecidableEq, Repr

/-- `n mod 256` (R17). -/
def narrow (n : Nat) : Byte := BitVec.ofNat 8 n

/-- The product of two bytes, narrowed: bits 7:0 of the 16-bit product (R78, R81). -/
def mulByte (u v : Byte) : Byte := narrow (u.toNat * v.toNat)

/-- The sum of two bytes, narrowed: the carry is discarded (R79, R81). -/
def addByte (u v : Byte) : Byte := narrow (u.toNat + v.toNat)

/-- The ALU: it reads x[a] and x[b] (both before any write), writes x[a] for MUL and ADD and the flags for CMP, and
touches nothing else (R77). -/
def State.alu (s : State) (op : AluOp) (a b : Fin 8) : State :=
  match op with
  | .mul => s.setReg a (mulByte (s.reg a) (s.reg b))
  | .add => s.setReg a (addByte (s.reg a) (s.reg b))
  | .cmp => s.setFlags (compareFlags (s.reg a) (s.reg b))

/-- MUL regA, regB: x[a] <- (x[a] * x[b]) mod 256, pc <- p + 3 (R78). -/
def execMul (op1 op2 : Byte) (s : State) : Host.Outcome State Fault Refusal :=
  s.withRegs op1 op2 (fun a b => .ok ((s.alu .mul a b).advance 3))

/-- ADD regA, regB: x[a] <- (x[a] + x[b]) mod 256, pc <- p + 3 (R79). -/
def execAdd (op1 op2 : Byte) (s : State) : Host.Outcome State Fault Refusal :=
  s.withRegs op1 op2 (fun a b => .ok ((s.alu .add a b).advance 3))

/-- CMP regA, regB: E, G, L from x[a] against x[b], pc <- p + 3 (R80). -/
def execCmp (op1 op2 : Byte) (s : State) : Host.Outcome State Fault Refusal :=
  s.withRegs op1 op2 (fun a b => .ok ((s.alu .cmp a b).advance 3))

end Sys2Proof.Machine
end

