-- ==== Sys2Proof/Machine/Basic.lean ====
section
/-! DEFINITION. HLT, LDI, PRN (40_basic_hlt_ldi_prn.md). -/

namespace Sys2Proof.Machine

/-- HLT: run <- Halted, pc <- p + 1 (R74). -/
def execHlt (s : State) : Host.Outcome State Fault Refusal :=
  s.settle (.ok (s.halt.advance 1))

/-- LDI reg, imm: x[r] <- imm, pc <- p + 3 (R75). -/
def execLdi (op1 op2 : Byte) (s : State) : Host.Outcome State Fault Refusal :=
  s.withReg op1 (fun r => .ok ((s.setReg r op2).advance 3))

/-- PRN reg: Out(x[r]), pc <- p + 2 (R76). -/
def execPrn (op1 : Byte) (s : State) : Host.Outcome State Fault Refusal :=
  s.withReg op1 (fun r => .ok ((s.emit (s.reg r)).advance 2))

end Sys2Proof.Machine
end

