-- ==== Sys2Proof/Machine/Jump.lean ====
section
/-! DEFINITION. JEQ, JNE, JMP (42_jumps.md): the target is a register's value; taken, nothing is added; not taken, the
default advance (R82). -/

namespace Sys2Proof.Machine

/-- A jump under a condition (R82). -/
def State.jumpIf (s : State) (taken : Bool) (r : Fin 8) : State :=
  if taken then s.jumpTo (s.reg r) else s.advance 2

/-- JEQ reg: taken when E = 1 (R83). -/
def execJeq (op1 : Byte) (s : State) : Host.Outcome State Fault Refusal :=
  s.withReg op1 (fun r => .ok (s.jumpIf s.flags.e r))

/-- JNE reg: taken when E = 0 (R84). -/
def execJne (op1 : Byte) (s : State) : Host.Outcome State Fault Refusal :=
  s.withReg op1 (fun r => .ok (s.jumpIf (!s.flags.e) r))

/-- JMP reg: always taken (R85). -/
def execJmp (op1 : Byte) (s : State) : Host.Outcome State Fault Refusal :=
  s.withReg op1 (fun r => .ok (s.jumpTo (s.reg r)))

end Sys2Proof.Machine
end

