-- ==== Sys2Proof/Machine/Stack.lean ====
section
/-! DEFINITION. PUSH, POP, CALL, RET (43_stack_and_calls.md). The order of the actions matters where the operand names
register 7 and is the spec's own: PUSH and CALL read x[r] after the decrement, POP increments the value it has loaded
(R87, R88, R89; 92_eei_decisions.md D13). -/

namespace Sys2Proof.Machine

/-- PUSH reg: SP <- SP - 1, MemWrite(SP, x[r]) with x[r] read after the decrement, pc <- p + 2 (R87). -/
def execPush (op1 : Byte) (s : State) : Host.Outcome State Fault Refusal :=
  s.withReg op1 (fun r =>
    match s.pushByte (s.decSp.reg r) with
    | .error c => .error c
    | .ok t => .ok (t.advance 2))

/-- POP reg: x[r] <- MemRead(SP), then SP <- SP + 1 on what x[7] now holds, pc <- p + 2 (R88). -/
def execPop (op1 : Byte) (s : State) : Host.Outcome State Fault Refusal :=
  s.withReg op1 (fun r =>
    match s.popLoad with
    | .error c => .error c
    | .ok v => .ok ((s.setReg r v).incSp.advance 2))

/-- CALL's return address p + 2, a natural number; 256 or more is no address and raises (R89). -/
def State.returnAddress (s : State) : Except Cause Byte :=
  if Config.memSize ≤ s.pc.toNat + 2 then .error (.addressOutOfBounds (s.pc.toNat + 2))
  else .ok (BitVec.ofNat 8 (s.pc.toNat + 2))

/-- CALL reg: the return address is checked before anything is written, then pushed, then pc <- x[r] read after the
push (R89). -/
def execCall (op1 : Byte) (s : State) : Host.Outcome State Fault Refusal :=
  s.withReg op1 (fun r =>
    match s.returnAddress with
    | .error c => .error c
    | .ok ra =>
      match s.pushByte ra with
      | .error c => .error c
      | .ok t => .ok (t.jumpTo (t.reg r)))

/-- RET: t <- MemRead(SP), SP <- SP + 1, pc <- t (R90). -/
def execRet (s : State) : Host.Outcome State Fault Refusal :=
  s.settle (match s.popLoad with
    | .error c => .error c
    | .ok t => .ok (s.incSp.jumpTo t))

end Sys2Proof.Machine
end

