-- ==== Sys2Proof/Syntax.lean ====
section
/-! DEFINITION. The instructions as syntax: one constructor per row of spec/opcode_table.json (R1, R58).

A register operand is kept as the WHOLE OPERAND BYTE, as fetched: R62 makes an index byte of 8 or more a fault that
the step raises after decoding, with that byte as the fault's info, so the byte must survive decoding. `Instr.wf`
(WellFormed.lean) says which operand bytes name a register. -/

namespace Sys2Proof

/-- The closed set of thirteen instructions (R1, R2), with their operand bytes in the order of R58. -/
inductive Instr where
  /-- HLT, format Z (R74). -/
  | hlt
  /-- LDI reg, imm, format RI (R75). -/
  | ldi (reg imm : Byte)
  /-- PRN reg, format R (R76). -/
  | prn (reg : Byte)
  /-- MUL regA, regB, format RR (R78). -/
  | mul (regA regB : Byte)
  /-- ADD regA, regB, format RR (R79). -/
  | add (regA regB : Byte)
  /-- CMP regA, regB, format RR (R80). -/
  | cmp (regA regB : Byte)
  /-- JEQ reg, format R (R83). -/
  | jeq (reg : Byte)
  /-- JNE reg, format R (R84). -/
  | jne (reg : Byte)
  /-- JMP reg, format R (R85). -/
  | jmp (reg : Byte)
  /-- PUSH reg, format R (R87). -/
  | push (reg : Byte)
  /-- POP reg, format R (R88). -/
  | pop (reg : Byte)
  /-- CALL reg, format R (R89). -/
  | call (reg : Byte)
  /-- RET, format Z (R90). -/
  | ret
deriving DecidableEq, Repr

end Sys2Proof
end

