-- ==== Sys2Proof/WellFormed.lean ====
section
/-! DEFINITION. Which instructions are well formed: every register operand byte names a register (R58, R62).
The immediate of LDI has no illegal value (R63, R65). -/

namespace Sys2Proof

/-- A legal register operand byte: 0..7, the whole byte, no masking (R62). -/
def regByteOk (b : Byte) : Bool := decide (b.toNat < Config.numRegs)

/-- Every register operand byte of the instruction is legal. -/
def Instr.wf : Instr → Bool
  | .hlt => true
  | .ldi r _ => regByteOk r
  | .prn r => regByteOk r
  | .mul a b => regByteOk a && regByteOk b
  | .add a b => regByteOk a && regByteOk b
  | .cmp a b => regByteOk a && regByteOk b
  | .jeq r => regByteOk r
  | .jne r => regByteOk r
  | .jmp r => regByteOk r
  | .push r => regByteOk r
  | .pop r => regByteOk r
  | .call r => regByteOk r
  | .ret => true

end Sys2Proof
end

