-- ==== Sys2Proof/Decode.lean ====
section
/-! DEFINITION. The decoder and, after it, the encoder (30_encoding.md).

Both take the opcode assignment OPC as an argument (00_scope.md R12; 92_eei_decisions.md D4 leaves it a named
parameter), so that what is said of the formats does not rest on the ten opcode values the source does not give;
`decode` and `encode` are the two at the default assignment `opc` of R60. Reading an operand byte is separated from
where the bytes stand: `decodeWith` asks a reader for the byte at offset 0, 1, 2 in the order of R67, and only for the
bytes the instruction has; the machine's reader is MemRead at pc + offset (Machine/Fetch.lean), the reader of
`decode` is a list of bytes. -/

namespace Sys2Proof

/-- The thirteen mnemonics (R1), what the opcode byte alone selects. -/
inductive Mnemonic where
  | hlt | ldi | prn | mul | add | cmp | jeq | jne | jmp | push | pop | call | ret
deriving DecidableEq, Repr

/-- All mnemonics, in the order of R60. -/
def Mnemonic.all : List Mnemonic :=
  [.hlt, .ldi, .prn, .mul, .add, .cmp, .jeq, .jne, .jmp, .push, .pop, .call, .ret]

/-- The operand count N of R59; the instruction is N + 1 bytes long (R57). -/
def Mnemonic.operandCount : Mnemonic → Nat
  | .hlt | .ret => 0
  | .prn | .jeq | .jne | .jmp | .push | .pop | .call => 1
  | .ldi | .mul | .add | .cmp => 2

/-- The default opcode assignment OPC (R60). HLT, LDI and PRN are the source's (its §8); the other ten the spec
supplies from general knowledge (D4): UNVERIFIED, unsafe, notes/assumptions/1.md. -/
def opc : Mnemonic → Byte
  | .hlt => 0x01#8
  | .ldi => 0x82#8
  | .prn => 0x47#8
  | .mul => 0xA2#8
  | .add => 0xA0#8
  | .cmp => 0xA7#8
  | .jeq => 0x55#8
  | .jne => 0x56#8
  | .jmp => 0x54#8
  | .push => 0x45#8
  | .pop => 0x46#8
  | .call => 0x50#8
  | .ret => 0x11#8

/-- The mnemonic a byte selects under an assignment: equality on all eight bits, otherwise none (R60, R64). -/
def mnemonicOf (opcodes : Mnemonic → Byte) (b : Byte) : Option Mnemonic :=
  Mnemonic.all.find? (fun m => opcodes m == b)

/-- The instruction of a mnemonic and its operand bytes (R58); an operand byte the format lacks is not looked at. -/
def Mnemonic.assemble (op1 op2 : Byte) : Mnemonic → Instr
  | .hlt => .hlt
  | .ldi => .ldi op1 op2
  | .prn => .prn op1
  | .mul => .mul op1 op2
  | .add => .add op1 op2
  | .cmp => .cmp op1 op2
  | .jeq => .jeq op1
  | .jne => .jne op1
  | .jmp => .jmp op1
  | .push => .push op1
  | .pop => .pop op1
  | .call => .call op1
  | .ret => .ret

/-- Why bytes are no instruction: an opcode byte with no table entry (R64), or no byte at an offset the instruction
needs (the step turns this one into AddressOutOfBounds, R67). -/
inductive DecodeError where
  | illegalOpcode (b : Byte)
  | missingByte (offset : Nat)
deriving DecidableEq, Repr

/-- Stages 1 to 3 of the step (R67): the opcode byte, its mnemonic, then exactly the N operand bytes the mnemonic
has, in ascending order; the first failure ends it (R100). -/
def decodeWith (opcodes : Mnemonic → Byte) (read : Nat → Option Byte) : Except DecodeError Instr :=
  match read 0 with
  | none => .error (.missingByte 0)
  | some b =>
    match mnemonicOf opcodes b with
    | none => .error (.illegalOpcode b)
    | some m =>
      if m.operandCount = 0 then .ok (m.assemble 0#8 0#8)
      else
        match read 1 with
        | none => .error (.missingByte 1)
        | some op1 =>
          if m.operandCount = 1 then .ok (m.assemble op1 0#8)
          else
            match read 2 with
            | none => .error (.missingByte 2)
            | some op2 => .ok (m.assemble op1 op2)

/-- The mnemonic of an instruction. -/
def Instr.mnemonic : Instr → Mnemonic
  | .hlt => .hlt
  | .ldi _ _ => .ldi
  | .prn _ => .prn
  | .mul _ _ => .mul
  | .add _ _ => .add
  | .cmp _ _ => .cmp
  | .jeq _ => .jeq
  | .jne _ => .jne
  | .jmp _ => .jmp
  | .push _ => .push
  | .pop _ => .pop
  | .call _ => .call
  | .ret => .ret

/-- The length in bytes: N + 1 (R57, R66). -/
def Instr.length (i : Instr) : Nat := i.mnemonic.operandCount + 1

/-- The instruction at the front of a list of bytes under an assignment, and the bytes after it. -/
def decodeList (opcodes : Mnemonic → Byte) (bs : List Byte) : Except DecodeError (Instr × List Byte) :=
  match decodeWith opcodes (fun k => bs[k]?) with
  | .error e => .error e
  | .ok i => .ok (i, bs.drop i.length)

/-- The decoder of this hardware, total on any bytes. -/
def decode (bs : List Byte) : Except DecodeError (Instr × List Byte) := decodeList opc bs

/-- The operand bytes of an instruction in the order of R58. -/
def Instr.operands : Instr → List Byte
  | .hlt => []
  | .ldi r imm => [r, imm]
  | .prn r => [r]
  | .mul a b => [a, b]
  | .add a b => [a, b]
  | .cmp a b => [a, b]
  | .jeq r => [r]
  | .jne r => [r]
  | .jmp r => [r]
  | .push r => [r]
  | .pop r => [r]
  | .call r => [r]
  | .ret => []

/-- The bytes of an instruction under an assignment, lowest address first (R57, R43). -/
def encodeWith (opcodes : Mnemonic → Byte) (i : Instr) : List Byte := opcodes i.mnemonic :: i.operands

/-- The encoder of this hardware. -/
def encode (i : Instr) : List Byte := encodeWith opc i

/-- The three bytes of an opcode-table word: byte k is bits 8k + 7 .. 8k of the low `nbits` bits of `w`, lowest address
first; the bits above `nbits` are 0, up to the longest instruction (three bytes). -/
def tableBytes (nbits w : Nat) : List Byte :=
  [BitVec.ofNat 8 (w % 2 ^ nbits), BitVec.ofNat 8 (w % 2 ^ nbits / 256), BitVec.ofNat 8 (w % 2 ^ nbits / 65536)]

/-- The instruction the decoder reads from an opcode-table word. -/
def decodeTableWord (nbits w : Nat) : Option Instr :=
  match decode (tableBytes nbits w) with
  | .ok (i, _) => some i
  | .error _ => none

end Sys2Proof
end

