-- ==== Sys2Proof/Machine/Fetch.lean ====
section
/-! DEFINITION. Fetching and decoding the instruction at pc: stages 1 to 3 of the step (R67). -/

namespace Sys2Proof.Machine

/-- The reader of the decoder: MemRead(p + k), none where it raises (R40). -/
def State.fetchByte (s : State) (k : Nat) : Option Byte :=
  match s.memRead (s.pc.toNat + k) with
  | .ok b => some b
  | .error _ => none

/-- A decoding failure as the fault the step raises: a byte past the last cell is AddressOutOfBounds of its address,
an unknown opcode is IllegalOpcode (R67, R100). -/
def State.fetchCause (s : State) : DecodeError → Cause
  | .illegalOpcode b => .illegalOpcode b
  | .missingByte k => .addressOutOfBounds (s.pc.toNat + k)

/-- The instruction at pc, or the fault its fetch or decoding raises. -/
def State.fetch (s : State) : Except Cause Instr :=
  match decodeWith opc s.fetchByte with
  | .ok i => .ok i
  | .error e => .error (s.fetchCause e)

/-- The bytes a fetch at pc may read: those of the three from pc on that are cells of memory. -/
def State.codeBytes (s : State) : List Byte := (List.range 3).filterMap s.fetchByte

end Sys2Proof.Machine
end

