-- ==== Sys2Proof/Machine/Loader.lean ====
section
/-! DEFINITION. The load that precedes a run (R110, R111): the host's bulk write of a program image from address 0,
after reset and before the first step. -/

namespace Sys2Proof.Machine

/-- `for i in 0 .. n-1: MemWrite(a + i, 1, img[i])` (R111). -/
def State.loadAt (s : State) (a : Nat) : List Byte → Except Cause State
  | [] => .ok s
  | b :: bs =>
    match s.memWrite a b with
    | .error c => .error c
    | .ok t => t.loadAt (a + 1) bs

/-- Reset and load: the state the first step runs from (R37, R111). An image longer than memory breaks the launch
preconditions and is refused by name (92_eei_decisions.md D18). -/
def State.launch (img : List Byte) : Host.Outcome State Fault Refusal :=
  match State.reset.loadAt 0 img with
  | .ok s => .next s
  | .error _ => .refused (.imageTooLong img.length)

end Sys2Proof.Machine
end

