-- ==== Sys2Proof/Machine/Step.lean ====
section
/-! DEFINITION. One step (R67) and the host's way of placing an instruction where it is fetched. -/

namespace Sys2Proof.Machine

/-- The step: defined only in Running (R67; R30 for the two terminal states). A fault in fetch or decode is taken as a
next state (R95). -/
def step (s : State) : Host.Outcome State Fault Refusal :=
  match s.run with
  | .halted => .fault .noStepHalted
  | .faulted _ _ => .fault .noStepFaulted
  | .running =>
    match s.fetch with
    | .error c => .next (s.raise c)
    | .ok i => exec i s

/-- Bytes stored one by one from address `a` on, those past the last cell left out. -/
def State.pokeAt (s : State) (a : Nat) : List Byte → State
  | [] => s
  | b :: bs =>
    match s.memWrite a b with
    | .error _ => s
    | .ok t => t.pokeAt (a + 1) bs

/-- `s` with the three bytes of an opcode-table word at pc and the run state Running, so that the very next step
fetches and runs that instruction. It stands for the loader (R111; notes/assumptions/4.md). -/
def State.withFetchWord (s : State) (nbits w : Nat) : State :=
  { s.pokeAt s.pc.toNat (tableBytes nbits w) with run := .running }

end Sys2Proof.Machine
end

