-- ==== Sys2Proof/Safety.lean ====
section
/-! DEFINITION. The terms claims are stated in: what two states agree on, the invariant of the machine, and runs
(30_encoding.md R68, 70_reset_and_hazards.md R113, R118). -/

namespace Sys2Proof.Machine

/-- Every register but those in `ds` holds what it held. -/
def State.sameRegsBut (s t : State) (ds : List (Fin 8)) : Prop := ∀ j, j ∉ ds → t.reg j = s.reg j

/-- Every register holds what it held. -/
def State.sameRegs (s t : State) : Prop := ∀ j, t.reg j = s.reg j

/-- Every byte of memory reads as it read. -/
def State.sameMem (s t : State) : Prop := ∀ a, t.byteAt a = s.byteAt a

/-- Every byte of memory but the one at `x` reads as it read. -/
def State.sameMemBut (s t : State) (x : Nat) : Prop := ∀ a, a ≠ x → t.byteAt a = s.byteAt a

/-- The state with G and L cleared: what is left when the two flags no instruction reads are not looked at (R28). -/
def State.blindGL (s : State) : State := { s with flags := { s.flags with g := false, l := false } }

/-- The state with E cleared: what is left when E is not looked at. -/
def State.blindE (s : State) : State := { s with flags := { s.flags with e := false } }

/-- The state with OUT emptied: what is left when the output trace is not looked at (R31). -/
def State.blindOut (s : State) : State := { s with out := [] }

/-- The registers an instruction may write (R22, the writes column): the destination its operand byte names, and the
implicit SP of the stack instructions. -/
def mayWrite : Instr → Fin 8 → Prop
  | .ldi r _, j => j.val = r.toNat
  | .mul a _, j => j.val = a.toNat
  | .add a _, j => j.val = a.toNat
  | .push _, j => j = Config.spIndex
  | .pop r, j => j.val = r.toNat ∨ j = Config.spIndex
  | .call _, j => j = Config.spIndex
  | .ret, j => j = Config.spIndex
  | .hlt, _ => False
  | .prn _, _ => False
  | .cmp _ _, _ => False
  | .jeq _, _ => False
  | .jne _, _ => False
  | .jmp _, _ => False

/-- The control-transfer instructions, which can set pc directly (R19, R26). -/
def isTransfer : Instr → Bool
  | .jeq _ => true
  | .jne _ => true
  | .jmp _ => true
  | .call _ => true
  | .ret => true
  | .hlt => false
  | .ldi _ _ => false
  | .prn _ => false
  | .mul _ _ => false
  | .add _ _ => false
  | .cmp _ _ => false
  | .push _ => false
  | .pop _ => false

/-- The register operand bytes of an instruction, first operand first (R58); LDI's immediate is none. -/
def regOperands : Instr → List Byte
  | .ldi r _ => [r]
  | .prn r => [r]
  | .mul a b => [a, b]
  | .add a b => [a, b]
  | .cmp a b => [a, b]
  | .jeq r => [r]
  | .jne r => [r]
  | .jmp r => [r]
  | .push r => [r]
  | .pop r => [r]
  | .call r => [r]
  | .hlt => []
  | .ret => []

/-- The first register operand byte that names no register (R100 items 5 and 6). -/
def firstBadRegister (i : Instr) : Option Byte := (regOperands i).find? (fun b => !regByteOk b)

/-- Instructions executed one after the other, without fetching them: for statements about short sequences. -/
def execAll : List Instr → State → Host.Outcome State Fault Refusal
  | [], s => .next s
  | i :: is, s =>
    match exec i s with
    | .next t => execAll is t
    | .fault f => .fault f
    | .refused r => .refused r

/-- A fault a run can show: the info each cause can carry (R92, R96, R97, R98). -/
def Cause.legal : Cause → Prop
  | .illegalOpcode b => mnemonicOf opc b = none
  | .addressOutOfBounds a => a = 256
  | .registerIndexOutOfBounds b => 8 ≤ b.toNat
  | .aluOpUnknown => False

/-- What a latched fault says of the state: it was raised at the present pc, with a legal cause (R30, R92). -/
def Run.legal (pc : PcWord) : Run → Prop
  | .running => True
  | .halted => True
  | .faulted c p => p = pc ∧ c.legal

/-- The invariant of the machine: memory in canonical form, pc in 0..256 (R26), a latched fault legal. -/
def State.Inv (s : State) : Prop := Memory.wf s.mem ∧ s.pc.toNat ≤ 256 ∧ s.run.legal s.pc

/-- `t` is the state `n` steps after `s`. -/
def stepsTo : Nat → State → State → Prop
  | 0, s, t => s = t
  | n + 1, s, t => ∃ u, step s = .next u ∧ stepsTo n u t

/-- The run from `s` has ended in `t`: a terminal run state (R113). -/
def endsIn (s t : State) : Prop := ∃ n, stepsTo n s t ∧ t.run ≠ .running

/-- The run from `s` never ends: there is a state after every number of steps (R118). -/
def runsForever (s : State) : Prop := ∀ n, ∃ t, stepsTo n s t

/-- No step of the run from `s` executes HLT and none raises a fault (R118): what the steps do, whatever run state
they leave after an HLT. -/
def neverHaltsOrFaults (s : State) : Prop :=
  ∀ n t u, stepsTo n s t → step t = .next u → t.fetch ≠ .ok .hlt ∧ ∀ c p, u.run ≠ .faulted c p

/-- A safe run: no state it reaches is faulted (R113: a Faulted end is a failed run). -/
def safeRun (s : State) : Prop := ∀ n t, stepsTo n s t → ∀ c p, t.run ≠ .faulted c p

end Sys2Proof.Machine
end

