-- ==== Sys2Proof/Certificates/Slice0/Obligations.lean ====
section
/-! DEFINITION. The statements for the provers. A state's pc, registers and cells are compared as numbers where the
rule speaks of numbers. A faulting step is written as a record update, so that it says what raise writes and that it
writes nothing else. -/

open Sys2Proof Sys2Proof.Machine

/-! ## Encoding -/

/-- 30_encoding.md section 2: the opcode map, whole, and pairwise distinct. The ten values other than HLT, LDI, PRN are
the spec's own choice (92_eei_decisions.md D4; notes/assumptions/1.md). -/
def Obligations.OpcodeMapOfTheSpec : Prop :=
  opc .hlt = 0b00000001#8 ∧ opc .ldi = 0b10000010#8 ∧ opc .prn = 0b01000111#8 ∧ opc .mul = 0b10100010#8 ∧
  opc .add = 0b10100000#8 ∧ opc .cmp = 0b10100111#8 ∧ opc .jeq = 0b01010101#8 ∧ opc .jne = 0b01010110#8 ∧
  opc .jmp = 0b01010100#8 ∧ opc .push = 0b01000101#8 ∧ opc .pop = 0b01000110#8 ∧ opc .call = 0b01010000#8 ∧
  opc .ret = 0b00010001#8 ∧ ∀ a b, opc a = opc b → a = b

/-- R58, R59: the four formats byte by byte, with the legal values of a register byte and of the immediate, and the
operand count of each instruction. -/
def Obligations.FormatsAndOperandCounts : Prop :=
  ∀ r imm a b : Byte,
    (encode .hlt = [opc .hlt] ∧ encode .ret = [opc .ret]) ∧
    (encode (.prn r) = [opc .prn, r] ∧ encode (.jeq r) = [opc .jeq, r] ∧ encode (.jne r) = [opc .jne, r] ∧
      encode (.jmp r) = [opc .jmp, r] ∧ encode (.push r) = [opc .push, r] ∧ encode (.pop r) = [opc .pop, r] ∧
      encode (.call r) = [opc .call, r]) ∧
    (encode (.mul a b) = [opc .mul, a, b] ∧ encode (.add a b) = [opc .add, a, b] ∧
      encode (.cmp a b) = [opc .cmp, a, b]) ∧
    encode (.ldi r imm) = [opc .ldi, r, imm] ∧
    (∀ i ∈ [Instr.prn r, .jeq r, .jne r, .jmp r, .push r, .pop r, .call r, .ldi r imm], i.wf = true ↔ r.toNat < 8) ∧
    (∀ i ∈ [Instr.mul a b, .add a b, .cmp a b], i.wf = true ↔ a.toNat < 8 ∧ b.toNat < 8) ∧
    (∀ i ∈ [Instr.hlt, .ret], i.wf = true ∧ i.mnemonic.operandCount = 0) ∧
    (∀ i ∈ [Instr.prn r, .jeq r, .jne r, .jmp r, .push r, .pop r, .call r], i.mnemonic.operandCount = 1) ∧
    (∀ i ∈ [Instr.mul a b, .add a b, .cmp a b, .ldi r imm], i.mnemonic.operandCount = 2)

/-- Decoding an encoded instruction gives it back, with every operand byte, whatever follows it in memory, for EVERY
injective opcode assignment (the parameter OPC of R12), so it does not rest on D4. -/
def Obligations.DecodeOfEncodeIsIdentity : Prop :=
  ∀ f : Mnemonic → Byte, (∀ a b, f a = f b → a = b) →
    ∀ (i : Instr) (rest : List Byte), decodeList f (encodeWith f i ++ rest) = .ok (i, rest)

/-- Bytes that decode are exactly the encoding of what they decode to, then the rest: no bit is dropped and each byte
string has one meaning. -/
def Obligations.EncodeOfDecodeIsIdentity : Prop :=
  ∀ (f : Mnemonic → Byte) (bs rest : List Byte) (i : Instr),
    decodeList f bs = .ok (i, rest) → bs = encodeWith f i ++ rest

/-- R64, R93: the 243 bytes outside the table, 0x00 among them, are illegal; fetching one raises IllegalOpcode of the
byte, reads no operand byte (it does so at 255 too, and whatever follows), and leaves everything but run. -/
def Obligations.IllegalOpcodeFaultsAndNothingElse : Prop :=
  (∀ b : Byte, mnemonicOf opc b = none ↔ ∀ m, opc m ≠ b) ∧
  ((List.range 256).filter (fun n => (mnemonicOf opc (BitVec.ofNat 8 n)).isNone)).length = 243 ∧
  mnemonicOf opc 0x00#8 = none ∧
  ∀ s : State, s.run = .running → s.pc.toNat < 256 → mnemonicOf opc (s.byteAt s.pc.toNat) = none →
    step s = .next { s with run := .faulted (.illegalOpcode (s.byteAt s.pc.toNat)) s.pc }

/-- 30_encoding.md section 3 with the spec's own choice D5: the whole byte is the index, 8 or more faults. -/
def Obligations.RegisterByteIsTheIndex : Prop :=
  ∀ b : Byte, (∀ h : b.toNat < 8, regIdx b = .ok ⟨b.toNat, h⟩) ∧
    (8 ≤ b.toNat → regIdx b = .error (.registerIndexOutOfBounds b))

/-- A sanity statement: a few byte strings of 95_test_vectors.md decode to the instructions listed beside them. -/
def Obligations.WordsOfTheManualDecode : Prop :=
  decode [0b10000010#8, 0b00000000#8, 0b00001000#8] = .ok (.ldi 0#8 8#8, []) ∧
  decode [0b01000111#8, 0b00000000#8] = .ok (.prn 0#8, []) ∧
  decode [0b00000001#8] = .ok (.hlt, []) ∧
  decode [0xA2#8, 0x00#8, 0x02#8] = .ok (.mul 0#8 2#8, []) ∧
  decode [0xA7#8, 0x00#8, 0x02#8] = .ok (.cmp 0#8 2#8, []) ∧
  decode [0x56#8, 0x03#8] = .ok (.jne 3#8, []) ∧
  decode [0x50#8, 0x01#8] = .ok (.call 1#8, []) ∧
  decode [0x11#8] = .ok (.ret, [])

/-! ## Memory and reset -/

/-- R40: MemRead raises at 256 and above, otherwise returns the cell; it returns no state, so it changes none. -/
def Obligations.MemReadBoundsAndValue : Prop :=
  ∀ (s : State) (a : Nat), (256 ≤ a → s.memRead a = .error (.addressOutOfBounds a)) ∧
    (a < 256 → s.memRead a = .ok (s.byteAt a))

/-- R41: MemWrite raises at 256 and above; at every address below, it changes exactly that cell and nothing else. -/
def Obligations.MemWriteChangesOneCell : Prop :=
  ∀ (s : State) (a : Nat) (v : Byte),
    (256 ≤ a → s.memWrite a v = .error (.addressOutOfBounds a)) ∧
    (a < 256 → ∃ t, s.memWrite a v = .ok t ∧ t.byteAt a = v ∧ s.sameMemBut t a ∧ t.regs = s.regs ∧ t.pc = s.pc ∧
      t.flags = s.flags ∧ t.run = s.run ∧ t.out = s.out)

/-- The canonical form is canonical: memories in it that read alike are equal data. -/
def Obligations.CanonicalMemoriesThatReadAlikeAreEqual : Prop :=
  ∀ m m' : Memory, Memory.wf m → Memory.wf m' → (∀ a, Memory.get m a = Memory.get m' a) → m = m'

/-- R35: the registers after reset. -/
def Obligations.ResetRegisters : Prop :=
  (∀ i : Fin 8, i.val < 7 → State.reset.reg i = 0x00#8) ∧ State.reset.reg 7 = 0xF4#8

/-- 10_state.md section 9: the rest of the reset state; the flags' values are the spec's own choice (D7), and that
reset clears memory is its rendering of construction (D23). -/
def Obligations.ResetRest : Prop :=
  State.reset.pc = 0#9 ∧ State.reset.run = .running ∧ State.reset.out = [] ∧
  State.reset.flags.e = false ∧ State.reset.flags.g = false ∧ State.reset.flags.l = false ∧
  ∀ a, State.reset.byteAt a = 0x00#8

/-- R37: memory is zero at reset and the loader writes the image into cells 0, 1, 2, ...; the load changes memory
alone. -/
def Obligations.LaunchLoadsTheImage : Prop :=
  (∀ a, State.reset.byteAt a = 0x00#8) ∧
  ∀ img : List Byte, img.length ≤ 256 →
    ∃ s, State.launch img = .next s ∧ (∀ i (h : i < img.length), s.byteAt i = img[i]) ∧
      (∀ a, img.length ≤ a → s.byteAt a = 0x00#8) ∧ s.regs = State.reset.regs ∧ s.pc = State.reset.pc ∧
      s.flags = State.reset.flags ∧ s.run = State.reset.run ∧ s.out = State.reset.out

/-- The launch precondition (the spec's own choice D18): a longer image is no launch of the model. -/
def Obligations.LaunchRefusesLongImages : Prop :=
  ∀ img : List Byte, 256 < img.length → State.launch img = .refused (.imageTooLong img.length)

/-! ## The step -/

/-- 30_encoding.md section 5: when the bytes from pc on decode to an instruction, well formed or not, the step is exec
of it, with nothing added around exec. -/
def Obligations.StepRunsTheDecodedInstruction : Prop :=
  ∀ (s : State) (i : Instr) (rest : List Byte), s.run = .running → decode s.codeBytes = .ok (i, rest) →
    step s = exec i s

/-- 30_encoding.md sections 1 and 5: an instruction whose encoding stands at ascending addresses from pc on, inside
memory, is the one the step runs. -/
def Obligations.StepRunsTheInstructionAtPc : Prop :=
  ∀ (s : State) (i : Instr), s.run = .running → s.pc.toNat + (encode i).length ≤ 256 →
    (∀ k (h : k < (encode i).length), s.byteAt (s.pc.toNat + k) = (encode i)[k]) → step s = exec i s

/-- The machine makes a step exactly in Running, whatever the state (30_encoding.md section 5); in the two terminal
run states the model's step stops by name (93_implementation_defined.md U22, notes/assumptions/3.md). -/
def Obligations.StepExistsExactlyInRunning : Prop :=
  ∀ s : State, ((∃ t, step s = .next t) ↔ s.run = .running) ∧
    (s.run = .halted → step s = .fault .noStepHalted) ∧
    (∀ c p, s.run = .faulted c p → step s = .fault .noStepFaulted)

/-- No instruction, well formed or not, in any state, stops the machine: exec answers a next state. -/
def Obligations.NoInstructionStopsTheMachine : Prop :=
  ∀ (i : Instr) (s : State), ∃ t, exec i s = .next t

/-- 60_exceptions.md section 4, the order the spec chose (D12): which fault a step raises, items 1 to 7; each clause's
premises hold where the clauses before it do not apply. -/
def Obligations.FaultPriority : Prop :=
  ∀ s : State, s.run = .running →
    (256 ≤ s.pc.toNat → step s = .next { s with run := .faulted (.addressOutOfBounds s.pc.toNat) s.pc }) ∧
    (s.pc.toNat < 256 → mnemonicOf opc (s.byteAt s.pc.toNat) = none →
      step s = .next { s with run := .faulted (.illegalOpcode (s.byteAt s.pc.toNat)) s.pc }) ∧
    (∀ m, s.pc.toNat = 255 → s.byteAt 255 = opc m → 1 ≤ m.operandCount →
      step s = .next { s with run := .faulted (.addressOutOfBounds 256) s.pc }) ∧
    (∀ m, s.pc.toNat = 254 → s.byteAt 254 = opc m → m.operandCount = 2 →
      step s = .next { s with run := .faulted (.addressOutOfBounds 256) s.pc }) ∧
    (∀ i b, s.fetch = .ok i → firstBadRegister i = some b →
      step s = .next { s with run := .faulted (.registerIndexOutOfBounds b) s.pc }) ∧
    (∀ r, s.fetch = .ok (.call r) → r.toNat < 8 → s.pc.toNat = 254 →
      step s = .next { s with run := .faulted (.addressOutOfBounds 256) s.pc })

/-- An instruction with a register operand byte of 8 or more raises RegisterIndexOutOfBounds of the first such byte,
whether or not it would read the register, and writes nothing else (the spec's own choices D5, D12). -/
def Obligations.BadRegisterOperandFaults : Prop :=
  ∀ (i : Instr) (s : State) (b : Byte), firstBadRegister i = some b →
    exec i s = .next { s with run := .faulted (.registerIndexOutOfBounds b) s.pc }

/-! ## The instructions -/

/-- HLT completes in every state: Halted, pc past the instruction (the advance is the spec's choice D10), all else
unchanged. -/
def Obligations.HltCompletes : Prop :=
  ∀ s : State, ∃ t, exec .hlt s = .next t ∧ t.run = .halted ∧ t.pc = s.pc + 1#9 ∧ s.sameRegs t ∧ t.flags = s.flags ∧
    t.out = s.out ∧ s.sameMem t

/-- LDI completes for every legal register byte and every immediate. -/
def Obligations.LdiCompletes : Prop :=
  ∀ (s : State) (r imm : Byte) (h : r.toNat < 8), ∃ t, exec (.ldi r imm) s = .next t ∧
    t.reg ⟨r.toNat, h⟩ = imm ∧ t.pc = s.pc + 3#9 ∧ s.sameRegsBut t [⟨r.toNat, h⟩] ∧ t.flags = s.flags ∧
    t.run = s.run ∧ t.out = s.out ∧ s.sameMem t

/-- R75, whole, at the step: the bytes of an LDI at pc, its effect, and every fault it can raise. -/
def Obligations.LdiWholeRule : Prop :=
  opc .ldi = 0x82#8 ∧ ∀ s : State, s.run = .running →
    (256 ≤ s.pc.toNat → step s = .next { s with run := .faulted (.addressOutOfBounds s.pc.toNat) s.pc }) ∧
    (s.pc.toNat < 256 → s.byteAt s.pc.toNat = 0x82#8 →
      (256 ≤ s.pc.toNat + 1 →
        step s = .next { s with run := .faulted (.addressOutOfBounds (s.pc.toNat + 1)) s.pc }) ∧
      (s.pc.toNat + 1 < 256 → 256 ≤ s.pc.toNat + 2 →
        step s = .next { s with run := .faulted (.addressOutOfBounds (s.pc.toNat + 2)) s.pc }) ∧
      (s.pc.toNat + 2 < 256 → 8 ≤ (s.byteAt (s.pc.toNat + 1)).toNat →
        step s = .next { s with run := .faulted (.registerIndexOutOfBounds (s.byteAt (s.pc.toNat + 1))) s.pc }) ∧
      (∀ r : Fin 8, s.pc.toNat + 2 < 256 → (s.byteAt (s.pc.toNat + 1)).toNat = r.val →
        ∃ t, step s = .next t ∧ t.reg r = s.byteAt (s.pc.toNat + 2) ∧ t.pc.toNat = s.pc.toNat + 3 ∧
          s.sameRegsBut t [r] ∧ t.flags = s.flags ∧ t.run = s.run ∧ t.out = s.out ∧ s.sameMem t))

/-- PRN completes: one byte, the register's value, after all earlier output. -/
def Obligations.PrnCompletes : Prop :=
  ∀ (s : State) (r : Byte) (h : r.toNat < 8), ∃ t, exec (.prn r) s = .next t ∧
    t.out = s.out ++ [s.reg ⟨r.toNat, h⟩] ∧ t.pc = s.pc + 2#9 ∧ s.sameRegs t ∧ t.flags = s.flags ∧ t.run = s.run ∧
    s.sameMem t

/-- MUL completes: the product of the values before it, modulo 256 (the low byte is the spec's choice D2), in the first
register; squaring included. -/
def Obligations.MulCompletes : Prop :=
  ∀ (s : State) (a b : Byte) (ha : a.toNat < 8) (hb : b.toNat < 8), ∃ t, exec (.mul a b) s = .next t ∧
    (t.reg ⟨a.toNat, ha⟩).toNat = ((s.reg ⟨a.toNat, ha⟩).toNat * (s.reg ⟨b.toNat, hb⟩).toNat) % 256 ∧
    t.pc = s.pc + 3#9 ∧ s.sameRegsBut t [⟨a.toNat, ha⟩] ∧ t.flags = s.flags ∧ t.run = s.run ∧ t.out = s.out ∧
    s.sameMem t

/-- ADD completes: the sum of the values before it, modulo 256, in the first register; doubling included. -/
def Obligations.AddCompletes : Prop :=
  ∀ (s : State) (a b : Byte) (ha : a.toNat < 8) (hb : b.toNat < 8), ∃ t, exec (.add a b) s = .next t ∧
    (t.reg ⟨a.toNat, ha⟩).toNat = ((s.reg ⟨a.toNat, ha⟩).toNat + (s.reg ⟨b.toNat, hb⟩).toNat) % 256 ∧
    t.pc = s.pc + 3#9 ∧ s.sameRegsBut t [⟨a.toNat, ha⟩] ∧ t.flags = s.flags ∧ t.run = s.run ∧ t.out = s.out ∧
    s.sameMem t

/-- CMP completes: each flag is set exactly when its comparison holds of the two values as unsigned numbers (the
signedness is the spec's choice D9), whatever it was before; no register changes. -/
def Obligations.CmpCompletes : Prop :=
  ∀ (s : State) (a b : Byte) (ha : a.toNat < 8) (hb : b.toNat < 8), ∃ t, exec (.cmp a b) s = .next t ∧
    (t.flags.e = true ↔ (s.reg ⟨a.toNat, ha⟩).toNat = (s.reg ⟨b.toNat, hb⟩).toNat) ∧
    (t.flags.g = true ↔ (s.reg ⟨a.toNat, ha⟩).toNat > (s.reg ⟨b.toNat, hb⟩).toNat) ∧
    (t.flags.l = true ↔ (s.reg ⟨a.toNat, ha⟩).toNat < (s.reg ⟨b.toNat, hb⟩).toNat) ∧
    t.pc = s.pc + 3#9 ∧ s.sameRegs t ∧ t.run = s.run ∧ t.out = s.out ∧ s.sameMem t

/-- R77 to R81: what the ALU computes and writes for each of its three operations, that it leaves everything else, and
that MUL, ADD, CMP are the ALU on op1, op2 taken directly as indices, then the advance by 3; the operation set is closed.
Which registers and flags are read and written is R77's; the values are those of R78 to R81, where MUL's low byte (D2)
and CMP's unsigned order (D9) are the spec's own choices (notes/assumptions/2.md). -/
def Obligations.AluBlock : Prop :=
  (∀ op : AluOp, op = .mul ∨ op = .add ∨ op = .cmp) ∧ ∀ (s : State) (a b : Fin 8),
    (((s.alu .mul a b).reg a).toNat = ((s.reg a).toNat * (s.reg b).toNat) % 256 ∧
      ((s.alu .add a b).reg a).toNat = ((s.reg a).toNat + (s.reg b).toNat) % 256 ∧
      (s.alu .cmp a b).flags = ⟨decide ((s.reg a).toNat = (s.reg b).toNat),
        decide ((s.reg a).toNat > (s.reg b).toNat), decide ((s.reg a).toNat < (s.reg b).toNat)⟩) ∧
    (s.sameRegsBut (s.alu .mul a b) [a] ∧ s.sameRegsBut (s.alu .add a b) [a] ∧ s.sameRegs (s.alu .cmp a b)) ∧
    ((s.alu .mul a b).flags = s.flags ∧ (s.alu .add a b).flags = s.flags) ∧
    (∀ op, (s.alu op a b).pc = s.pc ∧ (s.alu op a b).run = s.run ∧ (s.alu op a b).out = s.out ∧
      s.sameMem (s.alu op a b)) ∧
    (∀ x y : Byte, x.toNat = a.val → y.toNat = b.val →
      exec (.mul x y) s = .next { s.alu .mul a b with pc := s.pc + 3#9 } ∧
      exec (.add x y) s = .next { s.alu .add a b with pc := s.pc + 3#9 } ∧
      exec (.cmp x y) s = .next { s.alu .cmp a b with pc := s.pc + 3#9 })

/-- R82: JMP, JEQ, JNE complete; the target is the register's value as an absolute address, never 256 or more; taken,
nothing is added; not taken, pc + 2; only E is read, and only pc is written. -/
def Obligations.JumpsComplete : Prop :=
  ∀ (s : State) (r : Byte) (h : r.toNat < 8),
    exec (.jmp r) s = .next { s with pc := (s.reg ⟨r.toNat, h⟩).setWidth 9 } ∧
    (s.flags.e = true → exec (.jeq r) s = .next { s with pc := (s.reg ⟨r.toNat, h⟩).setWidth 9 }) ∧
    (s.flags.e = false → exec (.jeq r) s = .next { s with pc := s.pc + 2#9 }) ∧
    (s.flags.e = false → exec (.jne r) s = .next { s with pc := (s.reg ⟨r.toNat, h⟩).setWidth 9 }) ∧
    (s.flags.e = true → exec (.jne r) s = .next { s with pc := s.pc + 2#9 }) ∧
    ((s.reg ⟨r.toNat, h⟩).setWidth 9).toNat = (s.reg ⟨r.toNat, h⟩).toNat ∧
    ((s.reg ⟨r.toNat, h⟩).setWidth 9).toNat < 256

/-- PUSH completes for every register, R7 included: SP goes down by 1 modulo 256 (the wrap is the spec's choice D6) and
the cell there gets the register as read AFTER the decrement (D13 for R7). -/
def Obligations.PushCompletes : Prop :=
  ∀ (s : State) (r : Byte) (h : r.toNat < 8), ∃ t, exec (.push r) s = .next t ∧
    t.sp.toNat = (s.sp.toNat + 255) % 256 ∧ t.byteAt s.decSp.sp.toNat = t.reg ⟨r.toNat, h⟩ ∧
    t.sp = s.decSp.sp ∧ t.pc = s.pc + 2#9 ∧ s.sameRegsBut t [7] ∧ t.flags = s.flags ∧ t.run = s.run ∧
    t.out = s.out ∧ s.sameMemBut t s.decSp.sp.toNat

/-- POP completes for every register: the cell at SP goes to it and SP goes up by 1 modulo 256 (D6); POP R7 leaves the
loaded value plus 1 (D13); no cell changes. -/
def Obligations.PopCompletes : Prop :=
  ∀ (s : State) (r : Byte) (h : r.toNat < 8), ∃ t, exec (.pop r) s = .next t ∧
    (r.toNat ≠ 7 → t.reg ⟨r.toNat, h⟩ = s.byteAt s.sp.toNat ∧ t.sp.toNat = (s.sp.toNat + 1) % 256) ∧
    (r.toNat = 7 → t.sp.toNat = ((s.byteAt s.sp.toNat).toNat + 1) % 256) ∧
    t.pc = s.pc + 2#9 ∧ s.sameRegsBut t [⟨r.toNat, h⟩, 7] ∧ t.flags = s.flags ∧ t.run = s.run ∧ t.out = s.out ∧
    s.sameMem t

/-- CALL completes wherever its return address is an address (pc at most 253): it is pushed, and pc becomes the
register as read AFTER the push (D13 for R7). -/
def Obligations.CallCompletes : Prop :=
  ∀ (s : State) (r : Byte) (h : r.toNat < 8), s.pc.toNat ≤ 253 → ∃ t, exec (.call r) s = .next t ∧
    t.sp.toNat = (s.sp.toNat + 255) % 256 ∧ t.sp = s.decSp.sp ∧
    (t.byteAt s.decSp.sp.toNat).toNat = s.pc.toNat + 2 ∧ t.pc.toNat = (t.reg ⟨r.toNat, h⟩).toNat ∧
    s.sameRegsBut t [7] ∧ t.flags = s.flags ∧ t.run = s.run ∧ t.out = s.out ∧ s.sameMemBut t s.decSp.sp.toNat

/-- CALL whose return address is no address raises AddressOutOfBounds of it before anything is written (the spec's own
choice D14). -/
def Obligations.CallWithoutReturnAddressFaults : Prop :=
  ∀ (s : State) (r : Byte), r.toNat < 8 → 254 ≤ s.pc.toNat →
    exec (.call r) s = .next { s with run := .faulted (.addressOutOfBounds (s.pc.toNat + 2)) s.pc }

/-- RET completes in every state: pc becomes the byte at SP, SP goes up by 1 modulo 256 (D6). -/
def Obligations.RetCompletes : Prop :=
  ∀ s : State, ∃ t, exec .ret s = .next t ∧ t.pc.toNat = (s.byteAt s.sp.toNat).toNat ∧
    t.sp.toNat = (s.sp.toNat + 1) % 256 ∧ s.sameRegsBut t [7] ∧ t.flags = s.flags ∧ t.run = s.run ∧
    t.out = s.out ∧ s.sameMem t

/-- 43_stack_and_calls.md section on SP: a stack access never faults, whatever SP holds; SP wraps at both ends (D6). -/
def Obligations.StackAccessesNeverFault : Prop :=
  ∀ (s : State) (v : Byte), (∃ t, s.pushByte v = .ok t) ∧ (∃ b, s.popLoad = .ok b) ∧
    (s.sp = 0x00#8 → s.decSp.sp = 0xFF#8) ∧ (s.sp = 0xFF#8 → s.incSp.sp = 0x00#8)

/-! ## Short sequences: the source's properties -/

/-- 95_test_vectors.md S4: PUSH then POP of one register, R7 included, restores every register; the cell below the old
SP keeps the pushed value (90_conflicts.md C15), every other cell is unchanged. From an SP of 0 it rests on the wrap, the
spec's own choice D6, and for R7 on its choice D13 (notes/assumptions/2.md). -/
def Obligations.PushThenPopRestores : Prop :=
  ∀ (s : State) (r : Byte) (h : r.toNat < 8), ∃ t, execAll [.push r, .pop r] s = .next t ∧
    s.sameRegs t ∧ t.byteAt s.decSp.sp.toNat = s.decSp.reg ⟨r.toNat, h⟩ ∧ s.sameMemBut t s.decSp.sp.toNat ∧
    t.pc = s.pc + 4#9 ∧ t.flags = s.flags ∧ t.run = s.run ∧ t.out = s.out

/-- 95_test_vectors.md S7 with the SP, PUSH and POP rules of 43_stack_and_calls.md: R0, R1, R2 pushed and popped into
R3, R4, R5 come back in the order last in, first out, and SP is restored. That it holds from ANY SP, also where the stack
wraps, is not S7's: it rests on the spec's own choice D6 (notes/assumptions/2.md). -/
def Obligations.PushThreePopThreeIsLastInFirstOut : Prop :=
  ∀ s : State, ∃ t, execAll [.push 0#8, .push 1#8, .push 2#8, .pop 3#8, .pop 4#8, .pop 5#8] s = .next t ∧
    t.reg 3 = s.reg 2 ∧ t.reg 4 = s.reg 1 ∧ t.reg 5 = s.reg 0 ∧ s.sameRegsBut t [3, 4, 5] ∧ t.run = s.run

/-- 95_test_vectors.md S5: a CALL to an address that holds RET comes back to the instruction after the CALL with every
register restored, in two steps of the machine. The premises are S5's: the register is not R7, the RET's own cell is
not the one the return address is pushed to. From an SP of 0 it rests on the wrap, the spec's own choice D6. -/
def Obligations.CallThenRetReturns : Prop :=
  ∀ (s : State) (r : Fin 8), s.run = .running → s.pc.toNat ≤ 253 → s.byteAt s.pc.toNat = opc .call →
    (s.byteAt (s.pc.toNat + 1)).toNat = r.val → r ≠ 7 → s.byteAt (s.reg r).toNat = opc .ret →
    (s.reg r).toNat ≠ s.decSp.sp.toNat →
    ∃ t u, step s = .next t ∧ step t = .next u ∧ t.pc.toNat = (s.reg r).toNat ∧
      (t.byteAt s.decSp.sp.toNat).toNat = s.pc.toNat + 2 ∧ u.pc.toNat = s.pc.toNat + 2 ∧ s.sameRegs u ∧
      s.sameMemBut u s.decSp.sp.toNat ∧ u.flags = s.flags ∧ u.run = .running ∧ u.out = s.out

/-- 95_test_vectors.md S6: CMP then JEQ transfers exactly when the compared values are equal, whatever the flags
were before. -/
def Obligations.CmpThenJeqFollowsEquality : Prop :=
  ∀ (s : State) (a b r : Byte) (ha : a.toNat < 8) (hb : b.toNat < 8) (hr : r.toNat < 8),
    ∃ t, execAll [.cmp a b, .jeq r] s = .next t ∧
      (s.reg ⟨a.toNat, ha⟩ = s.reg ⟨b.toNat, hb⟩ → t.pc.toNat = (s.reg ⟨r.toNat, hr⟩).toNat) ∧
      (s.reg ⟨a.toNat, ha⟩ ≠ s.reg ⟨b.toNat, hb⟩ → t.pc = s.pc + 5#9) ∧ s.sameRegs t ∧ s.sameMem t

/-- 20_memory.md section 4 (fetch coherence): a byte stored by PUSH or CALL is the byte any later fetch at that address
reads. Which byte is stored is PUSH's and CALL's of 43_stack_and_calls.md, and what PUSH R7 stores and where CALL R7 goes
are the spec's own choice D13, the wrap of SP its choice D6 (notes/assumptions/2.md): CALL R7 goes to the cell it has just
written, so its very next fetch reads the return address. -/
def Obligations.StoredByteIsFetched : Prop :=
  (∀ (s t u : State) (r : Byte) (h : r.toNat < 8), exec (.push r) s = .next t → u.mem = t.mem →
    u.pc.toNat = s.decSp.sp.toNat → u.fetchByte 0 = some (s.decSp.reg ⟨r.toNat, h⟩)) ∧
  (∀ (s t u : State) (r : Byte), r.toNat < 8 → s.pc.toNat ≤ 253 → exec (.call r) s = .next t → u.mem = t.mem →
    u.pc.toNat = s.decSp.sp.toNat → u.fetchByte 0 = some (BitVec.ofNat 8 (s.pc.toNat + 2))) ∧
  (∀ s t : State, s.pc.toNat ≤ 253 → exec (.call 7#8) s = .next t →
    t.fetchByte 0 = some (BitVec.ofNat 8 (s.pc.toNat + 2)))

/-! ## Rules of the whole machine -/

/-- R28, whole: only CMP writes a flag, and it writes all three on every execution, whatever they were, leaving exactly
one set; E decides JEQ and JNE and is read by nothing else; G and L are read by no instruction. -/
def Obligations.FlagsWritersAndReaders : Prop :=
  (∀ (i : Instr) (s t : State), (∀ a b, i ≠ .cmp a b) → exec i s = .next t → t.flags = s.flags) ∧
  (∀ s t : State, step s = .next t → t.flags ≠ s.flags → ∃ a b, s.fetch = .ok (.cmp a b)) ∧
  (∀ (s : State) (f : Flags) (a b : Byte), a.toNat < 8 → b.toNat < 8 →
    ∃ t t', exec (.cmp a b) s = .next t ∧ exec (.cmp a b) (s.setFlags f) = .next t' ∧ t'.flags = t.flags ∧
      (t.flags = ⟨true, false, false⟩ ∨ t.flags = ⟨false, true, false⟩ ∨ t.flags = ⟨false, false, true⟩)) ∧
  (∀ (s : State) (r : Byte) (h : r.toNat < 8), ∃ t t', exec (.jeq r) s = .next t ∧ exec (.jne r) s = .next t' ∧
    t.pc = (if s.flags.e then (s.reg ⟨r.toNat, h⟩).setWidth 9 else s.pc + 2#9) ∧
    t'.pc = (if s.flags.e then s.pc + 2#9 else (s.reg ⟨r.toNat, h⟩).setWidth 9)) ∧
  (∀ (i : Instr) (s s' t : State), (∀ r, i ≠ .jeq r) → (∀ r, i ≠ .jne r) → s.blindE = s'.blindE →
    exec i s = .next t → ∃ t', exec i s' = .next t' ∧ t.blindE = t'.blindE) ∧
  (∀ (i : Instr) (s s' t : State), s.blindGL = s'.blindGL → exec i s = .next t →
    ∃ t', exec i s' = .next t' ∧ t.blindGL = t'.blindGL)

/-- 10_state.md section 4: no program can observe G or L. Two runs whose start states differ in them alone differ in
them alone after every number of steps: same registers, memory, pc, E, output and end. -/
def Obligations.GreaterAndLessAreUnobservable : Prop :=
  ∀ (n : Nat) (s s' t : State), s.blindGL = s'.blindGL → stepsTo n s t →
    ∃ t', stepsTo n s' t' ∧ t.blindGL = t'.blindGL

/-- 10_state.md section 6: the core writes OUT and never reads it. -/
def Obligations.OutputIsNeverRead : Prop :=
  ∀ (s s' t : State), s.blindOut = s'.blindOut → step s = .next t →
    ∃ t', step s' = .next t' ∧ t.blindOut = t'.blindOut

/-- 40_basic_hlt_ldi_prn.md, HLT: it is the only way into Halted, and always leads there. -/
def Obligations.HaltedOnlyByHlt : Prop :=
  ∀ s t : State, step s = .next t → (t.run = .halted ↔ s.fetch = .ok .hlt)

/-- 10_state.md section 6 and 40_basic_hlt_ldi_prn.md, PRN: a step leaves OUT or, running PRN, appends the one byte of
the register it names. -/
def Obligations.OutputGrowsOnlyByPrn : Prop :=
  ∀ s t : State, step s = .next t → t.out = s.out ∨
    ∃ (r : Byte) (i : Fin 8), s.fetch = .ok (.prn r) ∧ r.toNat = i.val ∧ t.out = s.out ++ [s.reg i]

/-- 10_state.md section 6: along every run OUT is append-only, by at most one byte a step. -/
def Obligations.OutputIsAppendOnlyAlongRuns : Prop :=
  ∀ (n : Nat) (s t : State), stepsTo n s t → ∃ w, t.out = s.out ++ w ∧ w.length ≤ n

/-- 20_memory.md sections 1 and 4: only PUSH and CALL change a cell, and only the one below SP (below an SP of 0 that is
cell 255, the spec's own choice D6). -/
def Obligations.MemoryWrittenOnlyByPushAndCall : Prop :=
  ∀ (s t : State) (a : Nat), step s = .next t → t.byteAt a ≠ s.byteAt a →
    a = s.decSp.sp.toNat ∧ ∃ r, s.fetch = .ok (.push r) ∨ s.fetch = .ok (.call r)

/-- 10_state.md section 2, the writes column: a step changes no register but those its instruction writes. -/
def Obligations.RegistersWrittenAsTabled : Prop :=
  ∀ (s t : State) (j : Fin 8), step s = .next t → t.reg j ≠ s.reg j → ∃ i, s.fetch = .ok i ∧ mayWrite i j

/-- 60_exceptions.md sections 2 and 5: a step that faults writes run and nothing else, and records the address of its
own opcode byte (what a fault leaves is the spec's own choice D11). -/
def Obligations.FaultingStepWritesOnlyRun : Prop :=
  ∀ (s t : State) (c : Cause) (p : PcWord), step s = .next t → t.run = .faulted c p →
    p = s.pc ∧ t = { s with run := .faulted c s.pc }

/-- 10_state.md section 3: an instruction that is no transfer and completes leaves pc at its own end, computed without
wrap: at most 256. That pc never wraps is the spec's own choice D3; HLT is among these instructions, and that it advances
pc, so that a halted state's pc is the address after the HLT, is its choice D10 (R26; notes/assumptions/2.md). -/
def Obligations.DefaultAdvanceNeverWraps : Prop :=
  ∀ (s t : State) (i : Instr), step s = .next t → s.fetch = .ok i → isTransfer i = false →
    (∀ c p, t.run ≠ .faulted c p) → t.pc.toNat = s.pc.toNat + i.length ∧ t.pc.toNat ≤ 256

/-- The invariant of the machine holds after reset: canonical memory, pc at most 256, no illegal fault latched. -/
def Obligations.ResetMeetsInvariant : Prop := State.reset.Inv

/-- Every step from every state that meets the invariant leads to one that meets it; a fault that a step latches has
the info its cause allows (60_exceptions.md section 1), and AluOpUnknown is never one. -/
def Obligations.StepKeepsInvariant : Prop :=
  ∀ s t : State, s.Inv → step s = .next t → t.Inv

/-- Every state of every launched run meets the invariant, whatever the program image. -/
def Obligations.LaunchedRunsMeetInvariant : Prop :=
  ∀ (img : List Byte) (n : Nat) (s t : State), State.launch img = .next s → stepsTo n s t → t.Inv

/-- 20_memory.md section 5: AddressOutOfBounds arises in exactly three ways, and the address is 256. That pc can hold 256
(D3) and that CALL at 254 faults (D14) are the spec's own choices. -/
def Obligations.OutOfBoundsOnlyInThreeWays : Prop :=
  ∀ (s t : State) (a : Nat) (p : PcWord), s.Inv → step s = .next t → t.run = .faulted (.addressOutOfBounds a) p →
    a = 256 ∧ (s.pc.toNat = 256 ∨
      (s.pc.toNat < 256 ∧ ∃ m, s.byteAt s.pc.toNat = opc m ∧ 256 ≤ s.pc.toNat + m.operandCount) ∨
      (s.pc.toNat = 254 ∧ ∃ r, s.fetch = .ok (.call r)))

/-- R101: a faulted state is left by no step, so its cause, info and address stay, and no second fault occurs. -/
def Obligations.FaultedIsTerminal : Prop :=
  ∀ (s : State) (c : Cause) (p : PcWord), s.run = .faulted c p →
    (∀ t, step s ≠ .next t) ∧ ∀ n t, stepsTo n s t → n = 0 ∧ t = s

/-- R118: from a Running state a run is infinite if and only if no step of it executes HLT and none faults (from any
other state there is no step at all); equivalently, it never reaches a terminal run state. It always has a step while
Running, no limit ends it, and a step leaves Running exactly when it executes HLT or faults at its own pc. -/
def Obligations.RunIsInfiniteIffItNeverEnds : Prop :=
  ∀ s : State, (runsForever s ↔ s.run = .running ∧ neverHaltsOrFaults s) ∧
    (runsForever s ↔ ¬ ∃ t, endsIn s t) ∧
    (∀ n t, stepsTo n s t → t.run = .running → ∃ u, stepsTo (n + 1) s u) ∧
    (∀ n t u, stepsTo n s t → step t = .next u →
      (u.run ≠ .running ↔ t.fetch = .ok .hlt ∨ ∃ c, u.run = .faulted c t.pc))

/-- 42_jumps.md, JMP's corner case, and 70_reset_and_hazards.md section 8: a JMP to itself is a run that never ends
and never faults. -/
def Obligations.JumpToItselfRunsForever : Prop :=
  ∀ (s : State) (r : Fin 8), s.run = .running → s.pc.toNat ≤ 254 → s.byteAt s.pc.toNat = opc .jmp →
    (s.byteAt (s.pc.toNat + 1)).toNat = r.val → (s.reg r).toNat = s.pc.toNat → runsForever s ∧ safeRun s
end

