-- ==== Sys2Proof/Laws/Decode.lean ====
section
/-! SUPPORT. What the decoder can do, said once, for any opcode assignment and any reader of bytes. -/

namespace Sys2Proof

theorem Mnemonic.mem_all (m : Mnemonic) : m ∈ Mnemonic.all := by cases m <;> decide

theorem Mnemonic.operandCount_le (m : Mnemonic) : m.operandCount ≤ 2 := by cases m <;> decide

/-- The thirteen default opcode bytes are pairwise distinct (R60). -/
theorem opc_injective : Function.Injective opc := by
  intro a b h
  cases a <;> cases b <;> first | rfl | exact absurd h (by decide)

/-- A byte selects only a mnemonic whose opcode it is. -/
theorem mnemonicOf_some {f : Mnemonic → Byte} {b : Byte} {m : Mnemonic} (h : mnemonicOf f b = some m) : f m = b := by
  simpa using List.find?_some h

/-- Under an injective assignment an opcode selects its own mnemonic. -/
theorem mnemonicOf_self {f : Mnemonic → Byte} (hf : Function.Injective f) (m : Mnemonic) :
    mnemonicOf f (f m) = some m := by
  obtain ⟨m', h⟩ := Option.isSome_iff_exists.mp
    (List.find?_isSome (p := fun m' => f m' == f m) |>.mpr ⟨m, Mnemonic.mem_all m, beq_self_eq_true (f m)⟩)
  rw [mnemonicOf, h, hf (mnemonicOf_some h)]

/-- A byte that selects nothing is no opcode (R64). -/
theorem mnemonicOf_none {f : Mnemonic → Byte} {b : Byte} : mnemonicOf f b = none ↔ ∀ m, f m ≠ b := by
  simp [mnemonicOf, List.find?_eq_none, Mnemonic.mem_all]

@[simp] theorem Mnemonic.assemble_mnemonic (m : Mnemonic) (x y : Byte) : (m.assemble x y).mnemonic = m := by
  cases m <;> rfl

/-- An instruction has as many operand bytes as its mnemonic's N (R59). -/
@[simp] theorem Instr.operands_length (i : Instr) : i.operands.length = i.mnemonic.operandCount := by
  cases i <;> rfl

/-- An instruction's encoding is N + 1 bytes long (R57). -/
@[simp] theorem encodeWith_length (f : Mnemonic → Byte) (i : Instr) : (encodeWith f i).length = i.length := by
  simp [encodeWith, Instr.length]

theorem Instr.length_pos (i : Instr) : 0 < i.length := Nat.succ_pos _

theorem Instr.length_le (i : Instr) : i.length ≤ 3 := Nat.succ_le_succ (Mnemonic.operandCount_le _)

/-- Everything a successful decoding says: the reader gave the instruction's own bytes at every offset it has. -/
theorem decodeWith_ok {f : Mnemonic → Byte} {read : Nat → Option Byte} {i : Instr}
    (h : decodeWith f read = .ok i) : ∀ k < i.length, read k = (encodeWith f i)[k]? := by
  unfold decodeWith at h
  split at h
  · cases h
  rename_i b h0
  split at h
  · cases h
  rename_i m hm
  obtain rfl := mnemonicOf_some hm
  split at h
  · rename_i hN
    cases h
    intro k hk
    obtain rfl : k = 0 := by simp [Instr.length, hN] at hk; exact hk
    simpa [encodeWith] using h0
  split at h
  · cases h
  rename_i h1
  split at h
  · rename_i hN
    cases h
    intro k hk
    simp only [Instr.length, Mnemonic.assemble_mnemonic, hN] at hk
    interval_cases k
    · simpa [encodeWith] using h0
    · cases m <;> first | exact absurd hN (by decide) | simpa [encodeWith, Mnemonic.assemble, Instr.operands] using h1
  split at h
  · cases h
  rename_i h2
  cases h
  intro k hk
  have hN := Mnemonic.operandCount_le m
  simp only [Instr.length, Mnemonic.assemble_mnemonic] at hk
  have hk : k < 3 := by omega
  interval_cases k
  · simpa [encodeWith] using h0
  · cases m <;> first
      | exact absurd rfl ‹¬ _ = 0› | exact absurd rfl ‹¬ _ = 1›
      | simpa [encodeWith, Mnemonic.assemble, Instr.operands] using h1
  · cases m <;> first
      | exact absurd rfl ‹¬ _ = 0› | exact absurd rfl ‹¬ _ = 1›
      | simpa [encodeWith, Mnemonic.assemble, Instr.operands] using h2

/-- A reader that gives an instruction's bytes is decoded to it, under an injective assignment. -/
theorem decodeWith_of_bytes {f : Mnemonic → Byte} (hf : Function.Injective f) {read : Nat → Option Byte} {i : Instr}
    (h : ∀ k < i.length, read k = (encodeWith f i)[k]?) : decodeWith f read = .ok i := by
  have h0 : read 0 = some (f i.mnemonic) := by simpa [encodeWith] using h 0 i.length_pos
  have hm := mnemonicOf_self hf i.mnemonic
  cases i <;> simp only [Instr.mnemonic, Instr.length, Mnemonic.operandCount] at h h0 hm <;>
    first
    | (have h1 := h 1 (by decide); have h2 := h 2 (by decide)
       simp [decodeWith, h0, hm, h1, h2, encodeWith, Instr.operands, Mnemonic.assemble, Mnemonic.operandCount])
    | (have h1 := h 1 (by decide)
       simp [decodeWith, h0, hm, h1, encodeWith, Instr.operands, Mnemonic.assemble, Mnemonic.operandCount])
    | simp [decodeWith, h0, hm, Mnemonic.assemble, Mnemonic.operandCount]

/-- Every way decoding fails (R67 stages 1 to 3, in R100's order). -/
theorem decodeWith_error {f : Mnemonic → Byte} {read : Nat → Option Byte} {e : DecodeError}
    (h : decodeWith f read = .error e) :
    (e = .missingByte 0 ∧ read 0 = none) ∨
    (∃ b, e = .illegalOpcode b ∧ read 0 = some b ∧ mnemonicOf f b = none) ∨
    (∃ m, mnemonicOf f (f m) = some m ∧ read 0 = some (f m) ∧
      ((e = .missingByte 1 ∧ read 1 = none ∧ 1 ≤ m.operandCount) ∨
       (e = .missingByte 2 ∧ read 2 = none ∧ (read 1).isSome ∧ m.operandCount = 2))) := by
  unfold decodeWith at h
  split at h
  · cases h; exact .inl ⟨rfl, ‹_›⟩
  split at h
  · cases h; exact .inr (.inl ⟨_, rfl, ‹_›, ‹_›⟩)
  rename_i m hm
  obtain rfl := mnemonicOf_some hm
  refine .inr (.inr ⟨m, hm, ‹_›, ?_⟩)
  split at h
  · cases h
  split at h
  · cases h; exact .inl ⟨rfl, ‹_›, by omega⟩
  rename_i h1
  split at h
  · cases h
  split at h
  · cases h
    have := Mnemonic.operandCount_le m
    exact .inr ⟨rfl, ‹_›, by simp [h1], by omega⟩
  · cases h

end Sys2Proof
end

