-- ==== Sys2Proof/Laws/State.lean ====
section
/-! SUPPORT. What each update of the state leaves in each field, one lemma per field per update, and the register
file's read after write. No later proof unfolds a record update. -/

namespace Sys2Proof.Machine

@[simp] theorem State.setReg_regs (s : State) (i : Fin 8) (v : Byte) : (s.setReg i v).regs = s.regs.set i v := rfl
@[simp] theorem State.setReg_pc (s : State) (i : Fin 8) (v : Byte) : (s.setReg i v).pc = s.pc := rfl
@[simp] theorem State.setReg_flags (s : State) (i : Fin 8) (v : Byte) : (s.setReg i v).flags = s.flags := rfl
@[simp] theorem State.setReg_run (s : State) (i : Fin 8) (v : Byte) : (s.setReg i v).run = s.run := rfl
@[simp] theorem State.setReg_out (s : State) (i : Fin 8) (v : Byte) : (s.setReg i v).out = s.out := rfl
@[simp] theorem State.setReg_mem (s : State) (i : Fin 8) (v : Byte) : (s.setReg i v).mem = s.mem := rfl
@[simp] theorem State.setReg_byteAt (s : State) (i : Fin 8) (v : Byte) (a : Nat) : (s.setReg i v).byteAt a = s.byteAt a := rfl

@[simp] theorem State.setPc_regs (s : State) (t : PcWord) : (s.setPc t).regs = s.regs := rfl
@[simp] theorem State.setPc_pc (s : State) (t : PcWord) : (s.setPc t).pc = t := rfl
@[simp] theorem State.setPc_flags (s : State) (t : PcWord) : (s.setPc t).flags = s.flags := rfl
@[simp] theorem State.setPc_run (s : State) (t : PcWord) : (s.setPc t).run = s.run := rfl
@[simp] theorem State.setPc_out (s : State) (t : PcWord) : (s.setPc t).out = s.out := rfl
@[simp] theorem State.setPc_mem (s : State) (t : PcWord) : (s.setPc t).mem = s.mem := rfl
@[simp] theorem State.setPc_reg (s : State) (t : PcWord) (j : Fin 8) : (s.setPc t).reg j = s.reg j := rfl
@[simp] theorem State.setPc_sp (s : State) (t : PcWord) : (s.setPc t).sp = s.sp := rfl
@[simp] theorem State.setPc_byteAt (s : State) (t : PcWord) (a : Nat) : (s.setPc t).byteAt a = s.byteAt a := rfl

@[simp] theorem State.advance_regs (s : State) (n : Nat) : (s.advance n).regs = s.regs := rfl
@[simp] theorem State.advance_pc (s : State) (n : Nat) : (s.advance n).pc = s.pc + BitVec.ofNat 9 n := rfl
@[simp] theorem State.advance_flags (s : State) (n : Nat) : (s.advance n).flags = s.flags := rfl
@[simp] theorem State.advance_run (s : State) (n : Nat) : (s.advance n).run = s.run := rfl
@[simp] theorem State.advance_out (s : State) (n : Nat) : (s.advance n).out = s.out := rfl
@[simp] theorem State.advance_mem (s : State) (n : Nat) : (s.advance n).mem = s.mem := rfl
@[simp] theorem State.advance_reg (s : State) (n : Nat) (j : Fin 8) : (s.advance n).reg j = s.reg j := rfl
@[simp] theorem State.advance_sp (s : State) (n : Nat) : (s.advance n).sp = s.sp := rfl
@[simp] theorem State.advance_byteAt (s : State) (n : Nat) (a : Nat) : (s.advance n).byteAt a = s.byteAt a := rfl

@[simp] theorem State.jumpTo_regs (s : State) (t : Byte) : (s.jumpTo t).regs = s.regs := rfl
@[simp] theorem State.jumpTo_pc (s : State) (t : Byte) : (s.jumpTo t).pc = t.setWidth 9 := rfl
@[simp] theorem State.jumpTo_flags (s : State) (t : Byte) : (s.jumpTo t).flags = s.flags := rfl
@[simp] theorem State.jumpTo_run (s : State) (t : Byte) : (s.jumpTo t).run = s.run := rfl
@[simp] theorem State.jumpTo_out (s : State) (t : Byte) : (s.jumpTo t).out = s.out := rfl
@[simp] theorem State.jumpTo_mem (s : State) (t : Byte) : (s.jumpTo t).mem = s.mem := rfl
@[simp] theorem State.jumpTo_reg (s : State) (t : Byte) (j : Fin 8) : (s.jumpTo t).reg j = s.reg j := rfl
@[simp] theorem State.jumpTo_sp (s : State) (t : Byte) : (s.jumpTo t).sp = s.sp := rfl
@[simp] theorem State.jumpTo_byteAt (s : State) (t : Byte) (a : Nat) : (s.jumpTo t).byteAt a = s.byteAt a := rfl

@[simp] theorem State.emit_regs (s : State) (v : Byte) : (s.emit v).regs = s.regs := rfl
@[simp] theorem State.emit_pc (s : State) (v : Byte) : (s.emit v).pc = s.pc := rfl
@[simp] theorem State.emit_flags (s : State) (v : Byte) : (s.emit v).flags = s.flags := rfl
@[simp] theorem State.emit_run (s : State) (v : Byte) : (s.emit v).run = s.run := rfl
@[simp] theorem State.emit_out (s : State) (v : Byte) : (s.emit v).out = s.out ++ [v] := rfl
@[simp] theorem State.emit_mem (s : State) (v : Byte) : (s.emit v).mem = s.mem := rfl
@[simp] theorem State.emit_reg (s : State) (v : Byte) (j : Fin 8) : (s.emit v).reg j = s.reg j := rfl
@[simp] theorem State.emit_sp (s : State) (v : Byte) : (s.emit v).sp = s.sp := rfl
@[simp] theorem State.emit_byteAt (s : State) (v : Byte) (a : Nat) : (s.emit v).byteAt a = s.byteAt a := rfl

@[simp] theorem State.raise_regs (s : State) (c : Cause) : (s.raise c).regs = s.regs := rfl
@[simp] theorem State.raise_pc (s : State) (c : Cause) : (s.raise c).pc = s.pc := rfl
@[simp] theorem State.raise_flags (s : State) (c : Cause) : (s.raise c).flags = s.flags := rfl
@[simp] theorem State.raise_run (s : State) (c : Cause) : (s.raise c).run = .faulted c s.pc := rfl
@[simp] theorem State.raise_out (s : State) (c : Cause) : (s.raise c).out = s.out := rfl
@[simp] theorem State.raise_mem (s : State) (c : Cause) : (s.raise c).mem = s.mem := rfl
@[simp] theorem State.raise_reg (s : State) (c : Cause) (j : Fin 8) : (s.raise c).reg j = s.reg j := rfl
@[simp] theorem State.raise_sp (s : State) (c : Cause) : (s.raise c).sp = s.sp := rfl
@[simp] theorem State.raise_byteAt (s : State) (c : Cause) (a : Nat) : (s.raise c).byteAt a = s.byteAt a := rfl

@[simp] theorem State.setFlags_regs (s : State) (f : Flags) : (s.setFlags f).regs = s.regs := rfl
@[simp] theorem State.setFlags_pc (s : State) (f : Flags) : (s.setFlags f).pc = s.pc := rfl
@[simp] theorem State.setFlags_flags (s : State) (f : Flags) : (s.setFlags f).flags = f := rfl
@[simp] theorem State.setFlags_run (s : State) (f : Flags) : (s.setFlags f).run = s.run := rfl
@[simp] theorem State.setFlags_out (s : State) (f : Flags) : (s.setFlags f).out = s.out := rfl
@[simp] theorem State.setFlags_mem (s : State) (f : Flags) : (s.setFlags f).mem = s.mem := rfl
@[simp] theorem State.setFlags_reg (s : State) (f : Flags) (j : Fin 8) : (s.setFlags f).reg j = s.reg j := rfl
@[simp] theorem State.setFlags_sp (s : State) (f : Flags) : (s.setFlags f).sp = s.sp := rfl
@[simp] theorem State.setFlags_byteAt (s : State) (f : Flags) (a : Nat) : (s.setFlags f).byteAt a = s.byteAt a := rfl

@[simp] theorem State.decSp_regs (s : State) : (s.decSp).regs = s.regs.set Config.spIndex (s.sp - 1#8) := rfl
@[simp] theorem State.decSp_pc (s : State) : (s.decSp).pc = s.pc := rfl
@[simp] theorem State.decSp_flags (s : State) : (s.decSp).flags = s.flags := rfl
@[simp] theorem State.decSp_run (s : State) : (s.decSp).run = s.run := rfl
@[simp] theorem State.decSp_out (s : State) : (s.decSp).out = s.out := rfl
@[simp] theorem State.decSp_mem (s : State) : (s.decSp).mem = s.mem := rfl
@[simp] theorem State.decSp_byteAt (s : State) (a : Nat) : (s.decSp).byteAt a = s.byteAt a := rfl

@[simp] theorem State.incSp_regs (s : State) : (s.incSp).regs = s.regs.set Config.spIndex (s.sp + 1#8) := rfl
@[simp] theorem State.incSp_pc (s : State) : (s.incSp).pc = s.pc := rfl
@[simp] theorem State.incSp_flags (s : State) : (s.incSp).flags = s.flags := rfl
@[simp] theorem State.incSp_run (s : State) : (s.incSp).run = s.run := rfl
@[simp] theorem State.incSp_out (s : State) : (s.incSp).out = s.out := rfl
@[simp] theorem State.incSp_mem (s : State) : (s.incSp).mem = s.mem := rfl
@[simp] theorem State.incSp_byteAt (s : State) (a : Nat) : (s.incSp).byteAt a = s.byteAt a := rfl

@[simp] theorem State.halt_regs (s : State) : s.halt.regs = s.regs := rfl
@[simp] theorem State.halt_pc (s : State) : s.halt.pc = s.pc := rfl
@[simp] theorem State.halt_flags (s : State) : s.halt.flags = s.flags := rfl
@[simp] theorem State.halt_run (s : State) : s.halt.run = .halted := rfl
@[simp] theorem State.halt_out (s : State) : s.halt.out = s.out := rfl
@[simp] theorem State.halt_mem (s : State) : s.halt.mem = s.mem := rfl
@[simp] theorem State.halt_reg (s : State) (j : Fin 8) : s.halt.reg j = s.reg j := rfl
@[simp] theorem State.halt_sp (s : State) : s.halt.sp = s.sp := rfl
@[simp] theorem State.halt_byteAt (s : State) (a : Nat) : s.halt.byteAt a = s.byteAt a := rfl

@[simp] theorem State.setByte_regs (s : State) (a : Nat) (v : Byte) : (s.setByte a v).regs = s.regs := rfl
@[simp] theorem State.setByte_pc (s : State) (a : Nat) (v : Byte) : (s.setByte a v).pc = s.pc := rfl
@[simp] theorem State.setByte_flags (s : State) (a : Nat) (v : Byte) : (s.setByte a v).flags = s.flags := rfl
@[simp] theorem State.setByte_run (s : State) (a : Nat) (v : Byte) : (s.setByte a v).run = s.run := rfl
@[simp] theorem State.setByte_out (s : State) (a : Nat) (v : Byte) : (s.setByte a v).out = s.out := rfl
@[simp] theorem State.setByte_mem (s : State) (a : Nat) (v : Byte) :
    (s.setByte a v).mem = Memory.set s.mem a v := rfl
@[simp] theorem State.setByte_reg (s : State) (a : Nat) (v : Byte) (j : Fin 8) :
    (s.setByte a v).reg j = s.reg j := rfl
@[simp] theorem State.setByte_sp (s : State) (a : Nat) (v : Byte) : (s.setByte a v).sp = s.sp := rfl

/-- Read after write in the register file: the written register holds the value, every other one what it held. -/
theorem RegFile.get_set (rf : RegFile) (i j : Fin 8) (v : Byte) :
    (rf.set i v).get j = if j = i then v else rf.get j := by
  fin_cases i <;> fin_cases j <;> rfl

@[simp] theorem RegFile.get_set_self (rf : RegFile) (i : Fin 8) (v : Byte) : (rf.set i v).get i = v := by
  simp [RegFile.get_set]

theorem RegFile.get_set_ne (rf : RegFile) {i j : Fin 8} (v : Byte) (h : j ≠ i) : (rf.set i v).get j = rf.get j := by
  simp [RegFile.get_set, h]

/-- A later write to the same register hides the earlier one. -/
@[simp] theorem RegFile.set_set (rf : RegFile) (i : Fin 8) (v w : Byte) : (rf.set i v).set i w = rf.set i w := by
  fin_cases i <;> rfl

/-- Writing what a register already holds changes nothing. -/
@[simp] theorem RegFile.set_get (rf : RegFile) (i : Fin 8) : rf.set i (rf.get i) = rf := by
  fin_cases i <;> rfl

/-- Register files that read alike are equal. -/
theorem RegFile.ext_get {rf rf' : RegFile} (h : ∀ i, rf.get i = rf'.get i) : rf = rf' := by
  have h0 := h 0; have h1 := h 1; have h2 := h 2; have h3 := h 3
  have h4 := h 4; have h5 := h 5; have h6 := h 6; have h7 := h 7
  cases rf; cases rf'
  simp_all [RegFile.get]

theorem State.setReg_reg (s : State) (i j : Fin 8) (v : Byte) :
    (s.setReg i v).reg j = if j = i then v else s.reg j := RegFile.get_set _ _ _ _

@[simp] theorem State.setReg_reg_self (s : State) (i : Fin 8) (v : Byte) : (s.setReg i v).reg i = v :=
  RegFile.get_set_self _ _ _

theorem State.setReg_reg_ne (s : State) {i j : Fin 8} (v : Byte) (h : j ≠ i) : (s.setReg i v).reg j = s.reg j :=
  RegFile.get_set_ne _ _ h

theorem State.setReg_sp (s : State) (i : Fin 8) (v : Byte) :
    (s.setReg i v).sp = if Config.spIndex = i then v else s.sp := State.setReg_reg _ _ _ _

theorem State.decSp_reg (s : State) (j : Fin 8) :
    s.decSp.reg j = if j = Config.spIndex then s.sp - 1#8 else s.reg j := State.setReg_reg _ _ _ _

theorem State.incSp_reg (s : State) (j : Fin 8) :
    s.incSp.reg j = if j = Config.spIndex then s.sp + 1#8 else s.reg j := State.setReg_reg _ _ _ _

theorem State.decSp_sp (s : State) : s.decSp.sp = s.sp - 1#8 := State.setReg_reg_self _ _ _

theorem State.incSp_sp (s : State) : s.incSp.sp = s.sp + 1#8 := State.setReg_reg_self _ _ _

/-- The stack pointer's decrement as a number: it wraps at 0 (R86). -/
theorem State.decSp_sp_toNat (s : State) : s.decSp.sp.toNat = (s.sp.toNat + 255) % 256 := by
  rw [State.decSp_sp, BitVec.toNat_sub]; simp; omega

/-- The stack pointer's increment as a number: it wraps at 255 (R86). -/
theorem State.incSp_sp_toNat (s : State) : s.incSp.sp.toNat = (s.sp.toNat + 1) % 256 := by
  rw [State.incSp_sp, BitVec.toNat_add]; rfl

/-- What the ALU leaves alone, whatever the operation (R77). -/
@[simp] theorem State.alu_pc (s : State) (op : AluOp) (a b : Fin 8) : (s.alu op a b).pc = s.pc := by
  cases op <;> rfl

@[simp] theorem State.alu_run (s : State) (op : AluOp) (a b : Fin 8) : (s.alu op a b).run = s.run := by
  cases op <;> rfl

@[simp] theorem State.alu_out (s : State) (op : AluOp) (a b : Fin 8) : (s.alu op a b).out = s.out := by
  cases op <;> rfl

@[simp] theorem State.alu_mem (s : State) (op : AluOp) (a b : Fin 8) : (s.alu op a b).mem = s.mem := by
  cases op <;> rfl

/-- The ALU writes at most its first register (R77). -/
theorem State.alu_reg_ne (s : State) (op : AluOp) {a b j : Fin 8} (h : j ≠ a) : (s.alu op a b).reg j = s.reg j := by
  cases op
  · exact State.setReg_reg_ne _ _ h
  · exact State.setReg_reg_ne _ _ h
  · rfl

/-- Bytes as numbers under the ALU's arithmetic (R81). -/
@[simp] theorem addByte_toNat (u v : Byte) : (addByte u v).toNat = (u.toNat + v.toNat) % 256 := by
  simp [addByte, narrow]

@[simp] theorem mulByte_toNat (u v : Byte) : (mulByte u v).toNat = (u.toNat * v.toNat) % 256 := by
  simp [mulByte, narrow]

/-- A jump either transfers or advances, never both (R82). -/
theorem State.jumpIf_pc (s : State) (c : Bool) (r : Fin 8) :
    (s.jumpIf c r).pc = if c then (s.reg r).setWidth 9 else s.pc + 2#9 := by
  cases c <;> rfl

@[simp] theorem State.jumpIf_regs (s : State) (c : Bool) (r : Fin 8) : (s.jumpIf c r).regs = s.regs := by
  cases c <;> rfl

@[simp] theorem State.jumpIf_flags (s : State) (c : Bool) (r : Fin 8) : (s.jumpIf c r).flags = s.flags := by
  cases c <;> rfl

@[simp] theorem State.jumpIf_run (s : State) (c : Bool) (r : Fin 8) : (s.jumpIf c r).run = s.run := by
  cases c <;> rfl

@[simp] theorem State.jumpIf_out (s : State) (c : Bool) (r : Fin 8) : (s.jumpIf c r).out = s.out := by
  cases c <;> rfl

@[simp] theorem State.jumpIf_mem (s : State) (c : Bool) (r : Fin 8) : (s.jumpIf c r).mem = s.mem := by
  cases c <;> rfl

@[simp] theorem State.jumpIf_reg (s : State) (c : Bool) (r j : Fin 8) : (s.jumpIf c r).reg j = s.reg j := by
  cases c <;> rfl

@[simp] theorem State.jumpIf_byteAt (s : State) (c : Bool) (r : Fin 8) (a : Nat) :
    (s.jumpIf c r).byteAt a = s.byteAt a := by
  cases c <;> rfl

end Sys2Proof.Machine
end

