-- ==== Sys2Proof/Laws/Memory.lean ====
section
/-! SUPPORT. Memory: read after write, the canonical form is kept by every operation, equal reads are equal data, and
what MemRead, MemWrite and the load can do. -/

namespace Sys2Proof.Machine

theorem Memory.get_erase (m : Memory) (a b : Nat) :
    Memory.get (Memory.erase m a) b = if b = a then 0#8 else Memory.get m b := by
  induction m with
  | nil => simp [Memory.erase, Memory.get]
  | cons c m ih =>
    simp only [Memory.erase, List.filter_cons] at ih ⊢
    by_cases hc : c.1 = a
    · simp only [hc, bne_self_eq_false, Bool.false_eq_true, if_false, Memory.get, ih]
      split
      · rfl
      · rw [if_neg (fun h => ‹¬b = a› h.symm)]
    · simp only [bne_iff_ne, ne_eq, hc, not_false_eq_true, if_true, Memory.get, ih]
      split <;> simp_all

theorem Memory.get_insert (m : Memory) (a b : Nat) (v : Byte) (h : ∀ c ∈ m, c.1 ≠ a) :
    Memory.get (Memory.insert m a v) b = if b = a then v else Memory.get m b := by
  induction m with
  | nil => simp [Memory.insert, Memory.get, eq_comm]
  | cons c m ih =>
    have hc := h c (by simp)
    have hm := ih (fun d hd => h d (by simp [hd]))
    simp only [Memory.insert]
    split <;> simp only [Memory.get, hm] <;> split <;> simp_all
    omega

theorem Memory.mem_erase {m : Memory} {a : Nat} {c : Host.Cell} :
    c ∈ Memory.erase m a ↔ c ∈ m ∧ c.1 ≠ a := by
  simp [Memory.erase]

/-- Read after write: the written address gives the value, every other address what it gave. No premise on the list. -/
theorem Memory.get_set (m : Memory) (a b : Nat) (v : Byte) :
    Memory.get (Memory.set m a v) b = if b = a then v else Memory.get m b := by
  unfold Memory.set
  split
  · rename_i hv
    rw [Memory.get_erase, hv]
  · rw [Memory.get_insert _ _ _ _ (fun c hc => (Memory.mem_erase.mp hc).2), Memory.get_erase]
    split <;> rfl

theorem Memory.mem_insert {m : Memory} {a : Nat} {v : Byte} {c : Host.Cell} :
    c ∈ Memory.insert m a v ↔ c = (a, v) ∨ c ∈ m := by
  induction m with
  | nil => simp [Memory.insert]
  | cons d m ih =>
    simp only [Memory.insert]
    split
    · simp
    · simp only [List.mem_cons, ih]; tauto

theorem Memory.erase_wf {m : Memory} {a : Nat} (h : Memory.wf m) : Memory.wf (Memory.erase m a) :=
  ⟨h.1.filter _, fun c hc => h.2 c (Memory.mem_erase.mp hc).1⟩

theorem Memory.insert_wf {m : Memory} {a : Nat} {v : Byte} (h : Memory.wf m) (hne : ∀ c ∈ m, c.1 ≠ a)
    (ha : a < 256) (hv : v ≠ 0#8) : Memory.wf (Memory.insert m a v) := by
  refine ⟨?_, fun c hc => ?_⟩
  · obtain ⟨hp, -⟩ := h
    induction m with
    | nil => simp [Memory.insert]
    | cons d m ih =>
      have hd := hne d (by simp)
      obtain ⟨h1, h2⟩ := List.pairwise_cons.mp hp
      simp only [Memory.insert]
      split
      · rename_i hlt
        refine List.pairwise_cons.mpr ⟨fun c hc => ?_, hp⟩
        rcases List.mem_cons.mp hc with rfl | hc
        · exact hlt
        · exact lt_trans hlt (h1 c hc)
      · refine List.pairwise_cons.mpr ⟨fun c hc => ?_, ih (fun c hc => hne c (by simp [hc])) h2⟩
        rcases Memory.mem_insert.mp hc with rfl | hc
        · show d.1 < a
          omega
        · exact h1 c hc
  · rcases Memory.mem_insert.mp hc with rfl | hc
    · exact ⟨ha, hv⟩
    · exact h.2 c hc

/-- A write to a cell keeps the canonical form. -/
theorem Memory.set_wf {m : Memory} {a : Nat} (v : Byte) (h : Memory.wf m) (ha : a < 256) :
    Memory.wf (Memory.set m a v) := by
  unfold Memory.set
  split
  · exact Memory.erase_wf h
  · rename_i hv
    exact Memory.insert_wf (Memory.erase_wf h) (fun c hc => (Memory.mem_erase.mp hc).2) ha hv

/-- The memory of the reset state is canonical. -/
theorem Memory.reset_wf : Memory.wf State.reset.mem := by decide

/-- An address below every listed one reads 0x00. -/
theorem Memory.get_of_lt {m : Memory} {a : Nat} (h : ∀ c ∈ m, a < c.1) : Memory.get m a = 0#8 := by
  induction m with
  | nil => rfl
  | cons c m ih =>
    have := h c (by simp)
    rw [Memory.get, if_neg (by omega), ih (fun d hd => h d (by simp [hd]))]

/-- An address past the last cell reads 0x00 in a canonical memory. -/
theorem Memory.get_of_le {m : Memory} {a : Nat} (h : Memory.wf m) (ha : 256 ≤ a) : Memory.get m a = 0#8 := by
  induction m with
  | nil => rfl
  | cons c m ih =>
    have hc : c.1 < 256 := (h.2 c (by simp)).1
    rw [Memory.get, if_neg (by omega)]
    exact ih ⟨(List.pairwise_cons.mp h.1).2, fun d hd => h.2 d (by simp [hd])⟩

@[simp] theorem State.memRead_of_lt {s : State} {a : Nat} (h : a < 256) : s.memRead a = .ok (s.byteAt a) := by
  simp [State.memRead, Nat.not_le.mpr h]

@[simp] theorem State.memRead_of_le {s : State} {a : Nat} (h : 256 ≤ a) :
    s.memRead a = .error (.addressOutOfBounds a) := by
  simp [State.memRead, h]

@[simp] theorem State.memWrite_of_lt {s : State} {a : Nat} {v : Byte} (h : a < 256) :
    s.memWrite a v = .ok (s.setByte a v) := by
  simp [State.memWrite, Nat.not_le.mpr h]

@[simp] theorem State.memWrite_of_le {s : State} {a : Nat} {v : Byte} (h : 256 ≤ a) :
    s.memWrite a v = .error (.addressOutOfBounds a) := by
  simp [State.memWrite, h]

/-- All a MemWrite that does not raise can do: one cell (R41). -/
theorem State.memWrite_ok {s t : State} {a : Nat} {v : Byte} (h : s.memWrite a v = .ok t) :
    a < 256 ∧ t = s.setByte a v := by
  by_cases ha : a < 256
  · rw [State.memWrite_of_lt ha] at h
    exact ⟨ha, (Except.ok.inj h).symm⟩
  · rw [State.memWrite_of_le (by omega)] at h
    cases h

/-- Read after write of a cell in a state. -/
theorem State.setByte_byteAt (s : State) (a b : Nat) (v : Byte) :
    (s.setByte a v).byteAt b = if b = a then v else s.byteAt b := Memory.get_set _ _ _ _

@[simp] theorem State.setByte_byteAt_self (s : State) (a : Nat) (v : Byte) : (s.setByte a v).byteAt a = v := by
  simp [State.setByte_byteAt]

theorem State.memWrite_byteAt {s t : State} {a : Nat} {v : Byte} (h : s.memWrite a v = .ok t) (b : Nat) :
    t.byteAt b = if b = a then v else s.byteAt b := by
  obtain ⟨-, rfl⟩ := State.memWrite_ok h
  exact State.setByte_byteAt _ _ _ _

/-- A stack address is a byte, so the load of `pop_byte` never raises (R86). -/
@[simp] theorem State.popLoad_eq (s : State) : s.popLoad = .ok (s.byteAt s.sp.toNat) :=
  State.memRead_of_lt s.sp.isLt

/-- A stack address is a byte, so `push_byte` never raises (R86): it decrements SP and changes the cell there. -/
@[simp] theorem State.pushByte_eq (s : State) (v : Byte) :
    s.pushByte v = .ok (s.decSp.setByte s.decSp.sp.toNat v) := State.memWrite_of_lt s.decSp.sp.isLt

/-- All a load that does not raise can do: it fits, it changes memory alone, and each cell holds its image byte or
what it held (R111). -/
theorem State.loadAt_ok (img : List Byte) : ∀ (s : State) (a : Nat), a + img.length ≤ 256 →
    ∃ m, s.loadAt a img = .ok { s with mem := m } ∧ (Memory.wf s.mem → Memory.wf m) ∧
      ∀ b, Memory.get m b = if a ≤ b then (img[b - a]?).getD (s.byteAt b) else s.byteAt b := by
  induction img with
  | nil => intro s a _; exact ⟨s.mem, rfl, id, fun b => by simp [State.byteAt]⟩
  | cons v img ih =>
    intro s a ha
    simp only [List.length_cons] at ha
    obtain ⟨m, h1, h2, h3⟩ := ih (s.setByte a v) (a + 1) (by omega)
    refine ⟨m, ?_, fun h => h2 (Memory.set_wf _ h (by omega)), fun b => ?_⟩
    · rw [State.loadAt, State.memWrite_of_lt (by omega)]
      exact h1
    · rw [h3]
      simp only [State.setByte_byteAt]
      rcases lt_trichotomy b a with h | h | h
      · rw [if_neg (by omega), if_neg (by omega), if_neg (by omega)]
      · subst h; simp
      · have e : b - a = b - (a + 1) + 1 := by omega
        have h1 : a + 1 ≤ b := h
        have h2 : a ≤ b := h.le
        have h3 : b ≠ a := h.ne'
        simp only [h1, h2, h3, if_true, if_false, e, List.getElem?_cons_succ]

/-- A load that goes past the last cell raises (R111, R41). -/
theorem State.loadAt_error (img : List Byte) : ∀ (s : State) (a : Nat), a ≤ 256 → 256 < a + img.length →
    s.loadAt a img = .error (.addressOutOfBounds 256) := by
  induction img with
  | nil => intro s a h1 h2; simp at h2; omega
  | cons v img ih =>
    intro s a h1 h2
    simp only [List.length_cons] at h2
    rw [State.loadAt]
    by_cases ha : a < 256
    · rw [State.memWrite_of_lt ha]
      exact ih _ (a + 1) (by omega) (by omega)
    · obtain rfl : a = 256 := by omega
      rw [State.memWrite_of_le (by omega)]

end Sys2Proof.Machine
end

