-- ==== Sys2Proof/Laws/Exec.lean ====
section
/-! SUPPORT. What each instruction does, one equation per meaning, and one lemma that says everything exec can do.
Provers cite these; no proof unfolds a meaning again. -/

namespace Sys2Proof.Machine

theorem regIdx_ok {b : Byte} (h : b.toNat < 8) : regIdx b = .ok ⟨b.toNat, h⟩ := by simp [regIdx, h]

theorem regIdx_error {b : Byte} (h : 8 ≤ b.toNat) : regIdx b = .error (.registerIndexOutOfBounds b) := by
  simp [regIdx, Nat.not_lt.mpr h]

theorem State.withReg_ok {s : State} {b : Byte} {rule : Fin 8 → Except Cause State} (h : b.toNat < 8) :
    s.withReg b rule = s.settle (rule ⟨b.toNat, h⟩) := by simp [State.withReg, regIdx_ok h]

theorem State.withReg_error {s : State} {b : Byte} {rule : Fin 8 → Except Cause State} (h : 8 ≤ b.toNat) :
    s.withReg b rule = .next (s.raise (.registerIndexOutOfBounds b)) := by
  simp [State.withReg, regIdx_error h, State.settle]

theorem State.withRegs_ok {s : State} {a b : Byte} {rule : Fin 8 → Fin 8 → Except Cause State} (ha : a.toNat < 8)
    (hb : b.toNat < 8) : s.withRegs a b rule = s.settle (rule ⟨a.toNat, ha⟩ ⟨b.toNat, hb⟩) := by
  simp [State.withRegs, regIdx_ok ha, regIdx_ok hb]

/-- The first bad register byte is the one reported (R97, R100). -/
theorem State.withRegs_error {s : State} {a b : Byte} {rule : Fin 8 → Fin 8 → Except Cause State}
    (h : 8 ≤ a.toNat ∨ 8 ≤ b.toNat) :
    s.withRegs a b rule = .next (s.raise (.registerIndexOutOfBounds (if 8 ≤ a.toNat then a else b))) := by
  by_cases ha : 8 ≤ a.toNat
  · simp [State.withRegs, regIdx_error ha, State.settle, ha]
  · have hb : 8 ≤ b.toNat := h.resolve_left ha
    simp [State.withRegs, regIdx_ok (Nat.lt_of_not_le ha), regIdx_error hb, State.settle, ha]

theorem State.returnAddress_ok {s : State} (h : s.pc.toNat < 254) :
    s.returnAddress = .ok (BitVec.ofNat 8 (s.pc.toNat + 2)) := by
  have : ¬ 256 ≤ s.pc.toNat + 2 := by omega
  simp only [State.returnAddress, this, if_false]

theorem State.returnAddress_error {s : State} (h : 254 ≤ s.pc.toNat) :
    s.returnAddress = .error (.addressOutOfBounds (s.pc.toNat + 2)) := by
  have : 256 ≤ s.pc.toNat + 2 := by omega
  simp only [State.returnAddress, this, if_true]

/-! One equation per instruction, on the operands it completes on. -/

theorem exec_hlt (s : State) : exec .hlt s = .next (s.halt.advance 1) := rfl

theorem exec_ldi {r : Byte} (imm : Byte) (s : State) (h : r.toNat < 8) :
    exec (.ldi r imm) s = .next ((s.setReg ⟨r.toNat, h⟩ imm).advance 3) := State.withReg_ok h

theorem exec_prn {r : Byte} (s : State) (h : r.toNat < 8) :
    exec (.prn r) s = .next ((s.emit (s.reg ⟨r.toNat, h⟩)).advance 2) := State.withReg_ok h

theorem exec_mul {a b : Byte} (s : State) (ha : a.toNat < 8) (hb : b.toNat < 8) :
    exec (.mul a b) s = .next ((s.alu .mul ⟨a.toNat, ha⟩ ⟨b.toNat, hb⟩).advance 3) := State.withRegs_ok ha hb

theorem exec_add {a b : Byte} (s : State) (ha : a.toNat < 8) (hb : b.toNat < 8) :
    exec (.add a b) s = .next ((s.alu .add ⟨a.toNat, ha⟩ ⟨b.toNat, hb⟩).advance 3) := State.withRegs_ok ha hb

theorem exec_cmp {a b : Byte} (s : State) (ha : a.toNat < 8) (hb : b.toNat < 8) :
    exec (.cmp a b) s = .next ((s.alu .cmp ⟨a.toNat, ha⟩ ⟨b.toNat, hb⟩).advance 3) := State.withRegs_ok ha hb

theorem exec_jeq {r : Byte} (s : State) (h : r.toNat < 8) :
    exec (.jeq r) s = .next (s.jumpIf s.flags.e ⟨r.toNat, h⟩) := State.withReg_ok h

theorem exec_jne {r : Byte} (s : State) (h : r.toNat < 8) :
    exec (.jne r) s = .next (s.jumpIf (!s.flags.e) ⟨r.toNat, h⟩) := State.withReg_ok h

theorem exec_jmp {r : Byte} (s : State) (h : r.toNat < 8) :
    exec (.jmp r) s = .next (s.jumpTo (s.reg ⟨r.toNat, h⟩)) := State.withReg_ok h

theorem exec_push {r : Byte} (s : State) (h : r.toNat < 8) :
    exec (.push r) s = .next
      ((s.decSp.setByte s.decSp.sp.toNat (s.decSp.reg ⟨r.toNat, h⟩)).advance 2) := by
  rw [exec, execPush, State.withReg_ok h, State.pushByte_eq]; rfl

theorem exec_pop {r : Byte} (s : State) (h : r.toNat < 8) :
    exec (.pop r) s = .next ((s.setReg ⟨r.toNat, h⟩ (s.byteAt s.sp.toNat)).incSp.advance 2) := by
  rw [exec, execPop, State.withReg_ok h, State.popLoad_eq]; rfl

theorem exec_call {r : Byte} (s : State) (h : r.toNat < 8) (hp : s.pc.toNat < 254) :
    exec (.call r) s = .next
      ((s.decSp.setByte s.decSp.sp.toNat (BitVec.ofNat 8 (s.pc.toNat + 2))).jumpTo (s.decSp.reg ⟨r.toNat, h⟩)) := by
  rw [exec, execCall, State.withReg_ok h, State.returnAddress_ok hp]
  simp only [State.pushByte_eq]; rfl

theorem exec_call_top {r : Byte} (s : State) (h : r.toNat < 8) (hp : 254 ≤ s.pc.toNat) :
    exec (.call r) s = .next (s.raise (.addressOutOfBounds (s.pc.toNat + 2))) := by
  rw [exec, execCall, State.withReg_ok h, State.returnAddress_error hp]; rfl

theorem exec_ret (s : State) : exec .ret s = .next (s.incSp.jumpTo (s.byteAt s.sp.toNat)) := by
  rw [exec, execRet, State.popLoad_eq]; rfl

/-- The instruction's own effect, as a relation; the operand bytes name the registers `a` and `b`. -/
def Effect (s t : State) : Instr → Prop
  | .hlt => t = s.halt.advance 1
  | .ldi r imm => ∃ a : Fin 8, a.val = r.toNat ∧ t = (s.setReg a imm).advance 3
  | .prn r => ∃ a : Fin 8, a.val = r.toNat ∧ t = (s.emit (s.reg a)).advance 2
  | .mul x y => ∃ a b : Fin 8, a.val = x.toNat ∧ b.val = y.toNat ∧ t = (s.alu .mul a b).advance 3
  | .add x y => ∃ a b : Fin 8, a.val = x.toNat ∧ b.val = y.toNat ∧ t = (s.alu .add a b).advance 3
  | .cmp x y => ∃ a b : Fin 8, a.val = x.toNat ∧ b.val = y.toNat ∧ t = (s.alu .cmp a b).advance 3
  | .jeq r => ∃ a : Fin 8, a.val = r.toNat ∧ t = s.jumpIf s.flags.e a
  | .jne r => ∃ a : Fin 8, a.val = r.toNat ∧ t = s.jumpIf (!s.flags.e) a
  | .jmp r => ∃ a : Fin 8, a.val = r.toNat ∧ t = s.jumpTo (s.reg a)
  | .push r => ∃ a : Fin 8, a.val = r.toNat ∧
      t = (s.decSp.setByte s.decSp.sp.toNat (s.decSp.reg a)).advance 2
  | .pop r => ∃ a : Fin 8, a.val = r.toNat ∧ t = (s.setReg a (s.byteAt s.sp.toNat)).incSp.advance 2
  | .call r => ∃ a : Fin 8, a.val = r.toNat ∧ s.pc.toNat < 254 ∧
      t = (s.decSp.setByte s.decSp.sp.toNat (BitVec.ofNat 8 (s.pc.toNat + 2))).jumpTo (s.decSp.reg a)
  | .ret => t = s.incSp.jumpTo (s.byteAt s.sp.toNat)

/-- The two faults an instruction can raise once decoded (R97, R96). -/
def ExecFault (s : State) (i : Instr) (c : Cause) : Prop :=
  (∃ b, b ∈ i.operands ∧ 8 ≤ b.toNat ∧ c = .registerIndexOutOfBounds b ∧ i.wf = false) ∨
  (∃ r, i = .call r ∧ i.wf = true ∧ 254 ≤ s.pc.toNat ∧ c = .addressOutOfBounds (s.pc.toNat + 2))

theorem exec_reg_cases {s : State} {r : Byte} {i : Instr} {P : Prop} (hr : r ∈ i.operands)
    (hi : i.wf = regByteOk r) (he : 8 ≤ r.toNat → exec i s = .next (s.raise (.registerIndexOutOfBounds r)))
    (hP : r.toNat < 8 → P) :
    (∃ c, ExecFault s i c ∧ exec i s = .next (s.raise c)) ∨ P := by
  by_cases h : r.toNat < 8
  · exact .inr (hP h)
  · have h8 : 8 ≤ r.toNat := Nat.le_of_not_lt h
    exact .inl ⟨_, .inl ⟨r, hr, h8, rfl, by rw [hi]; simp [regByteOk, h]⟩, he h8⟩

theorem exec_regs_cases {s : State} {x y : Byte} {i : Instr} {P : Prop} (hx : x ∈ i.operands) (hy : y ∈ i.operands)
    (hi : i.wf = (regByteOk x && regByteOk y))
    (he : 8 ≤ x.toNat ∨ 8 ≤ y.toNat →
      exec i s = .next (s.raise (.registerIndexOutOfBounds (if 8 ≤ x.toNat then x else y))))
    (hP : x.toNat < 8 → y.toNat < 8 → P) :
    (∃ c, ExecFault s i c ∧ exec i s = .next (s.raise c)) ∨ P := by
  by_cases h : x.toNat < 8
  · by_cases h' : y.toNat < 8
    · exact .inr (hP h h')
    · have h8 : 8 ≤ y.toNat := Nat.le_of_not_lt h'
      refine .inl ⟨_, .inl ⟨y, hy, h8, rfl, by rw [hi]; simp [regByteOk, h']⟩, ?_⟩
      rw [he (.inr h8), if_neg (by omega)]
  · have h8 : 8 ≤ x.toNat := Nat.le_of_not_lt h
    refine .inl ⟨_, .inl ⟨x, hx, h8, rfl, by rw [hi]; simp [regByteOk, h]⟩, ?_⟩
    rw [he (.inl h8), if_pos h8]

/-- Everything exec can do, as equations: it raises one of the two faults with nothing else written, or it completes
with the instruction's own effect. It never stops the machine. -/
theorem exec_outcome (i : Instr) (s : State) :
    (∃ c, ExecFault s i c ∧ exec i s = .next (s.raise c)) ∨ ∃ t, Effect s t i ∧ exec i s = .next t := by
  cases i with
  | hlt => exact .inr ⟨_, rfl, exec_hlt s⟩
  | ldi r imm =>
    exact exec_reg_cases (r := r) (i := .ldi r imm) (by simp [Instr.operands]) rfl (fun h => State.withReg_error h)
      (fun h => ⟨_, ⟨⟨_, h⟩, rfl, rfl⟩, exec_ldi imm s h⟩)
  | prn r =>
    exact exec_reg_cases (r := r) (i := .prn r) (by simp [Instr.operands]) rfl (fun h => State.withReg_error h)
      (fun h => ⟨_, ⟨⟨_, h⟩, rfl, rfl⟩, exec_prn s h⟩)
  | mul x y =>
    exact exec_regs_cases (x := x) (y := y) (i := .mul x y) (by simp [Instr.operands]) (by simp [Instr.operands]) rfl
      (fun h => State.withRegs_error h) (fun h h' => ⟨_, ⟨⟨_, h⟩, ⟨_, h'⟩, rfl, rfl, rfl⟩, exec_mul s h h'⟩)
  | add x y =>
    exact exec_regs_cases (x := x) (y := y) (i := .add x y) (by simp [Instr.operands]) (by simp [Instr.operands]) rfl
      (fun h => State.withRegs_error h) (fun h h' => ⟨_, ⟨⟨_, h⟩, ⟨_, h'⟩, rfl, rfl, rfl⟩, exec_add s h h'⟩)
  | cmp x y =>
    exact exec_regs_cases (x := x) (y := y) (i := .cmp x y) (by simp [Instr.operands]) (by simp [Instr.operands]) rfl
      (fun h => State.withRegs_error h) (fun h h' => ⟨_, ⟨⟨_, h⟩, ⟨_, h'⟩, rfl, rfl, rfl⟩, exec_cmp s h h'⟩)
  | jeq r =>
    exact exec_reg_cases (r := r) (i := .jeq r) (by simp [Instr.operands]) rfl (fun h => State.withReg_error h)
      (fun h => ⟨_, ⟨⟨_, h⟩, rfl, rfl⟩, exec_jeq s h⟩)
  | jne r =>
    exact exec_reg_cases (r := r) (i := .jne r) (by simp [Instr.operands]) rfl (fun h => State.withReg_error h)
      (fun h => ⟨_, ⟨⟨_, h⟩, rfl, rfl⟩, exec_jne s h⟩)
  | jmp r =>
    exact exec_reg_cases (r := r) (i := .jmp r) (by simp [Instr.operands]) rfl (fun h => State.withReg_error h)
      (fun h => ⟨_, ⟨⟨_, h⟩, rfl, rfl⟩, exec_jmp s h⟩)
  | push r =>
    exact exec_reg_cases (r := r) (i := .push r) (by simp [Instr.operands]) rfl (fun h => State.withReg_error h)
      (fun h => ⟨_, ⟨⟨_, h⟩, rfl, rfl⟩, exec_push s h⟩)
  | pop r =>
    exact exec_reg_cases (r := r) (i := .pop r) (by simp [Instr.operands]) rfl (fun h => State.withReg_error h)
      (fun h => ⟨_, ⟨⟨_, h⟩, rfl, rfl⟩, exec_pop s h⟩)
  | call r =>
    by_cases h : r.toNat < 8
    · by_cases hp : s.pc.toNat < 254
      · exact .inr ⟨_, ⟨⟨_, h⟩, rfl, hp, rfl⟩, exec_call s h hp⟩
      · exact .inl ⟨_, .inr ⟨r, rfl, by simp [Instr.wf, regByteOk, h], by omega, rfl⟩, exec_call_top s h (by omega)⟩
    · exact exec_reg_cases (r := r) (i := .call r) (by simp [Instr.operands]) rfl (fun h => State.withReg_error h)
        (fun h' => absurd h' h)
  | ret => exact .inr ⟨_, rfl, exec_ret s⟩

/-- Inversion: what a next state of exec is. -/
theorem exec_next_cases {i : Instr} {s t : State} (h : exec i s = .next t) :
    (∃ c, ExecFault s i c ∧ t = s.raise c) ∨ Effect s t i := by
  rcases exec_outcome i s with ⟨c, hc, he⟩ | ⟨u, hu, he⟩
  · exact .inl ⟨c, hc, by rw [he] at h; exact (Host.Outcome.next.inj h).symm⟩
  · rw [he] at h
    exact .inr (Host.Outcome.next.inj h ▸ hu)

end Sys2Proof.Machine
end

