-- ==== Sys2Proof/Laws/PerInstr.lean ====
section
/-! SUPPORT. Statements about every instruction as syntax, one lemma per constructor (LAWS.json). -/

namespace Sys2Proof.Laws

/-- The shape of an instruction's encoding (R57 to R59): one opcode byte that selects the instruction's mnemonic, then
its operand bytes, one to three bytes in all. -/
def EncodedShape.Statement (i : Instr) : Prop :=
  (encode i).length = i.mnemonic.operandCount + 1 ∧ (encode i).length ≤ 3 ∧
    (encode i).head? = some (opc i.mnemonic) ∧ mnemonicOf opc (opc i.mnemonic) = some i.mnemonic

/-- The shape from the decoder's own laws; each constructor's lemma below cites it. -/
theorem encodedShape_of_laws (i : Instr) : EncodedShape.Statement i :=
  ⟨encodeWith_length opc i, (encodeWith_length opc i).trans_le i.length_le, rfl, mnemonicOf_self opc_injective _⟩

theorem EncodedShape.hlt : EncodedShape.Statement .hlt := encodedShape_of_laws _
theorem EncodedShape.ldi (reg imm : Byte) : EncodedShape.Statement (.ldi reg imm) := encodedShape_of_laws _
theorem EncodedShape.prn (reg : Byte) : EncodedShape.Statement (.prn reg) := encodedShape_of_laws _
theorem EncodedShape.mul (regA regB : Byte) : EncodedShape.Statement (.mul regA regB) := encodedShape_of_laws _
theorem EncodedShape.add (regA regB : Byte) : EncodedShape.Statement (.add regA regB) := encodedShape_of_laws _
theorem EncodedShape.cmp (regA regB : Byte) : EncodedShape.Statement (.cmp regA regB) := encodedShape_of_laws _
theorem EncodedShape.jeq (reg : Byte) : EncodedShape.Statement (.jeq reg) := encodedShape_of_laws _
theorem EncodedShape.jne (reg : Byte) : EncodedShape.Statement (.jne reg) := encodedShape_of_laws _
theorem EncodedShape.jmp (reg : Byte) : EncodedShape.Statement (.jmp reg) := encodedShape_of_laws _
theorem EncodedShape.push (reg : Byte) : EncodedShape.Statement (.push reg) := encodedShape_of_laws _
theorem EncodedShape.pop (reg : Byte) : EncodedShape.Statement (.pop reg) := encodedShape_of_laws _
theorem EncodedShape.call (reg : Byte) : EncodedShape.Statement (.call reg) := encodedShape_of_laws _
theorem EncodedShape.ret : EncodedShape.Statement .ret := encodedShape_of_laws _

end Sys2Proof.Laws
end

