-- ==== Sys2Proof/Laws/Step.lean ====
section
/-! SUPPORT. Fetching and the step: what each can do, said once. -/

namespace Sys2Proof.Machine

theorem State.fetchByte_of_lt {s : State} {k : Nat} (h : s.pc.toNat + k < 256) :
    s.fetchByte k = some (s.byteAt (s.pc.toNat + k)) := by
  simp [State.fetchByte, State.memRead_of_lt h]

theorem State.fetchByte_of_le {s : State} {k : Nat} (h : 256 ≤ s.pc.toNat + k) : s.fetchByte k = none := by
  simp [State.fetchByte, State.memRead_of_le h]

theorem State.fetchByte_some {s : State} {k : Nat} {b : Byte} (h : s.fetchByte k = some b) :
    s.pc.toNat + k < 256 ∧ s.byteAt (s.pc.toNat + k) = b := by
  by_cases hk : s.pc.toNat + k < 256
  · rw [State.fetchByte_of_lt hk] at h
    exact ⟨hk, Option.some.inj h⟩
  · rw [State.fetchByte_of_le (by omega)] at h
    cases h

theorem State.fetchByte_none {s : State} {k : Nat} (h : s.fetchByte k = none) : 256 ≤ s.pc.toNat + k := by
  by_contra hk
  rw [State.fetchByte_of_lt (by omega)] at h
  cases h

/-- A fetched instruction stands whole at pc: its bytes are cells of memory and read as its encoding (R67). -/
theorem State.fetch_ok {s : State} {i : Instr} (h : s.fetch = .ok i) :
    s.pc.toNat + i.length ≤ 256 ∧ ∀ k < i.length, (encode i)[k]? = some (s.byteAt (s.pc.toNat + k)) := by
  have hd : decodeWith opc s.fetchByte = .ok i := by
    unfold State.fetch at h
    split at h
    · rename_i hd; cases h; exact hd
    · cases h
  have hk : ∀ k < i.length, s.pc.toNat + k < 256 ∧ (encode i)[k]? = some (s.byteAt (s.pc.toNat + k)) := by
    intro k hk
    have hb := decodeWith_ok hd k hk
    have hl : k < (encodeWith opc i).length := by simpa using hk
    rw [List.getElem?_eq_getElem hl] at hb
    obtain ⟨h1, h2⟩ := State.fetchByte_some hb
    exact ⟨h1, by rw [h2]; exact List.getElem?_eq_getElem hl⟩
  have hp := i.length_pos
  exact ⟨by have := (hk (i.length - 1) (by omega)).1; omega, fun k h => (hk k h).2⟩

/-- An instruction that stands whole at pc is fetched. -/
theorem State.fetch_of_bytes {s : State} {i : Instr} (hp : s.pc.toNat + i.length ≤ 256)
    (h : ∀ k < i.length, (encode i)[k]? = some (s.byteAt (s.pc.toNat + k))) : s.fetch = .ok i := by
  have : decodeWith opc s.fetchByte = .ok i := decodeWith_of_bytes opc_injective (fun k hk => by
    rw [State.fetchByte_of_lt (by omega)]; exact (h k hk).symm)
  simp [State.fetch, this]

/-- Every way a fetch faults, in R100's order. -/
theorem State.fetch_error {s : State} {c : Cause} (h : s.fetch = .error c) :
    (256 ≤ s.pc.toNat ∧ c = .addressOutOfBounds s.pc.toNat) ∨
    (s.pc.toNat < 256 ∧ mnemonicOf opc (s.byteAt s.pc.toNat) = none ∧ c = .illegalOpcode (s.byteAt s.pc.toNat)) ∨
    (s.pc.toNat < 256 ∧ ∃ m k, opc m = s.byteAt s.pc.toNat ∧ 1 ≤ k ∧ k ≤ m.operandCount ∧
      s.pc.toNat + k = 256 ∧ c = .addressOutOfBounds 256) := by
  unfold State.fetch at h
  split at h
  · cases h
  rename_i e he
  obtain rfl : s.fetchCause e = c := Except.error.inj h
  rcases decodeWith_error he with ⟨rfl, h0⟩ | ⟨b, rfl, h0, hb⟩ | ⟨m, -, h0, h1⟩
  · exact .inl ⟨by simpa using State.fetchByte_none h0, rfl⟩
  · obtain ⟨hp, rfl⟩ := State.fetchByte_some h0
    exact .inr (.inl ⟨by simpa using hp, by simpa using hb, by simp [State.fetchCause]⟩)
  · obtain ⟨hp, hm⟩ := State.fetchByte_some h0
    simp only [Nat.add_zero] at hp hm
    refine .inr (.inr ⟨hp, m, ?_⟩)
    rcases h1 with ⟨rfl, hn, hc⟩ | ⟨rfl, hn, hs, hc⟩
    · have := State.fetchByte_none hn
      have e : s.pc.toNat + 1 = 256 := by omega
      exact ⟨1, hm.symm, le_refl _, hc, e, by rw [State.fetchCause, e]⟩
    · have := State.fetchByte_none hn
      obtain ⟨b, hb⟩ := Option.isSome_iff_exists.mp hs
      have := (State.fetchByte_some hb).1
      have e : s.pc.toNat + 2 = 256 := by omega
      exact ⟨2, hm.symm, by decide, by omega, e, by rw [State.fetchCause, e]⟩

theorem step_running {s : State} (h : s.run = .running) :
    step s = match s.fetch with
      | .error c => .next (s.raise c)
      | .ok i => exec i s := by
  cases hf : s.fetch <;> simp only [step, h, hf]

theorem step_of_fetch {s : State} {i : Instr} (h : s.run = .running) (hf : s.fetch = .ok i) : step s = exec i s := by
  rw [step_running h, hf]

theorem step_of_fetch_error {s : State} {c : Cause} (h : s.run = .running) (hf : s.fetch = .error c) :
    step s = .next (s.raise c) := by
  rw [step_running h, hf]

/-- Everything a step can do: it starts in Running, and it raises the fault its fetch meets, or runs the fetched
instruction. -/
theorem step_next_cases {s t : State} (h : step s = .next t) :
    s.run = .running ∧ ((∃ c, s.fetch = .error c ∧ t = s.raise c) ∨ ∃ i, s.fetch = .ok i ∧ exec i s = .next t) := by
  cases hr : s.run with
  | running =>
    refine ⟨rfl, ?_⟩
    cases hf : s.fetch with
    | error c =>
      rw [step_of_fetch_error hr hf] at h
      exact .inl ⟨c, rfl, (Host.Outcome.next.inj h).symm⟩
    | ok i => exact .inr ⟨i, rfl, by rw [← step_of_fetch hr hf]; exact h⟩
  | halted => simp [step, hr] at h
  | faulted c p => simp [step, hr] at h

/-- The bytes a fetch may read are a list reader that agrees with the memory reader at offsets 0, 1, 2. -/
theorem State.codeBytes_get (s : State) {k : Nat} (hk : k < 3) : s.codeBytes[k]? = s.fetchByte k := by
  have e : s.codeBytes = [0, 1, 2].filterMap s.fetchByte := rfl
  rw [e]
  by_cases h0 : s.pc.toNat + 0 < 256
  · by_cases h1 : s.pc.toNat + 1 < 256
    · by_cases h2 : s.pc.toNat + 2 < 256
      · interval_cases k <;> simp [State.fetchByte_of_lt h0, State.fetchByte_of_lt h1, State.fetchByte_of_lt h2]
      · have h2 := Nat.le_of_not_lt h2
        interval_cases k <;> simp [State.fetchByte_of_lt h0, State.fetchByte_of_lt h1, State.fetchByte_of_le h2]
    · have h1 := Nat.le_of_not_lt h1
      have h2 : 256 ≤ s.pc.toNat + 2 := by omega
      interval_cases k <;> simp [State.fetchByte_of_lt h0, State.fetchByte_of_le h1, State.fetchByte_of_le h2]
  · have h0 := Nat.le_of_not_lt h0
    have h1 : 256 ≤ s.pc.toNat + 1 := by omega
    have h2 : 256 ≤ s.pc.toNat + 2 := by omega
    interval_cases k <;> simp [State.fetchByte_of_le h0, State.fetchByte_of_le h1, State.fetchByte_of_le h2]

/-- A run of `m + n` steps is one of `m` steps and then one of `n`. -/
theorem stepsTo_add {m n : Nat} {s u : State} :
    stepsTo (m + n) s u ↔ ∃ t, stepsTo m s t ∧ stepsTo n t u := by
  induction m generalizing s with
  | zero => simp [stepsTo]
  | succ m ih =>
    rw [Nat.add_right_comm]
    simp only [stepsTo, ih]
    constructor
    · rintro ⟨v, h1, t, h2, h3⟩; exact ⟨t, ⟨v, h1, h2⟩, h3⟩
    · rintro ⟨t, ⟨v, h1, h2⟩, h3⟩; exact ⟨v, h1, t, h2, h3⟩

/-- A property that every step keeps holds along a run from a state that has it. -/
theorem stepsTo_induct {P : State → Prop} (hs : ∀ s t, P s → step s = .next t → P t) :
    ∀ (n : Nat) (s t : State), P s → stepsTo n s t → P t
  | 0, _, _, h, e => e ▸ h
  | n + 1, s, t, h, ⟨u, h1, h2⟩ => stepsTo_induct hs n u t (hs s u h h1) h2

end Sys2Proof.Machine
end

