-- ==== Sys2Proof/Tests/Slice0.lean ====
section
/-! SUPPORT. Tests. Expected results are those of spec/95_test_vectors.md (the id stands in each comment) or of the
spec's encoding tables; the witnesses at the end meet the hypotheses of the statements in
Certificates/Slice0/Obligations.lean, named after them. -/

namespace Sys2Proof.Tests

open Sys2Proof.Machine

/-- The reset state with pc at `p` and bytes from there on. -/
def place (p : Nat) (bs : List Byte) : State := { State.reset.pokeAt p bs with pc := BitVec.ofNat 9 p }

/-- The outcome is a next state with the property. -/
def after (o : Host.Outcome State Fault Refusal) (P : State → Bool) : Bool :=
  match o with
  | .next s => P s
  | .fault _ => false
  | .refused _ => false

/-- What `after` says: the outcome is a next state, and that state has the property. -/
theorem after_iff {o : Host.Outcome State Fault Refusal} {P : State → Bool} :
    after o P = true ↔ ∃ t, o = .next t ∧ P t = true := by
  cases o <;> simp [after]

/-! ## Well-formedness: an ill-formed term for each check -/

theorem test_wf_one_register_refused :
    [Instr.ldi 8#8 0#8, .prn 8#8, .jeq 8#8, .jne 8#8, .jmp 8#8, .push 8#8, .pop 8#8, .call 0xFF#8].all (!·.wf) := by
  decide

theorem test_wf_two_registers_refused :
    [Instr.mul 8#8 0#8, .mul 0#8 8#8, .add 8#8 0#8, .add 0#8 8#8, .cmp 8#8 0#8, .cmp 0#8 8#8].all (!·.wf) := by decide

theorem test_wf_accepted :
    [Instr.hlt, .ldi 7#8 0xFF#8, .prn 7#8, .mul 7#8 0#8, .add 7#8 7#8, .cmp 0#8 7#8, .jeq 7#8, .jne 7#8, .jmp 7#8,
      .push 7#8, .pop 7#8, .call 7#8, .ret].all (·.wf) := by decide

/-! ## Decoding: words written out bit by bit from R58 and R60 -/

theorem test_decode_hlt : decode [0b00000001#8] = .ok (.hlt, []) := rfl
theorem test_decode_ldi : decode [0b10000010#8, 0b00000000#8, 0b00001000#8] = .ok (.ldi 0#8 8#8, []) := rfl
theorem test_decode_prn : decode [0b01000111#8, 0b00000000#8] = .ok (.prn 0#8, []) := rfl
theorem test_decode_mul : decode [0b10100010#8, 0b00000000#8, 0b00000010#8] = .ok (.mul 0#8 2#8, []) := rfl
theorem test_decode_add : decode [0b10100000#8, 0b00000111#8, 0b00000000#8] = .ok (.add 7#8 0#8, []) := rfl
theorem test_decode_cmp : decode [0b10100111#8, 0b00000000#8, 0b00000010#8] = .ok (.cmp 0#8 2#8, []) := rfl
theorem test_decode_jeq : decode [0b01010101#8, 0b00000010#8] = .ok (.jeq 2#8, []) := rfl
theorem test_decode_jne : decode [0b01010110#8, 0b00000011#8] = .ok (.jne 3#8, []) := rfl
theorem test_decode_jmp : decode [0b01010100#8, 0b00000001#8] = .ok (.jmp 1#8, []) := rfl
theorem test_decode_push : decode [0b01000101#8, 0b00000110#8] = .ok (.push 6#8, []) := rfl
theorem test_decode_pop : decode [0b01000110#8, 0b00000101#8] = .ok (.pop 5#8, []) := rfl
theorem test_decode_call : decode [0b01010000#8, 0b00000001#8] = .ok (.call 1#8, []) := rfl
theorem test_decode_ret : decode [0b00010001#8, 0b11111111#8] = .ok (.ret, [0xFF#8]) := rfl

/-- R62: the index byte is not masked; decoding keeps it whole. -/
theorem test_decode_keeps_register_byte : decode [0x47#8, 0x0F#8] = .ok (.prn 0x0F#8, []) := rfl

/-- V-DEC-1, V-DEC-3, V-DEC-4: 0x00, a near miss, a plausible AABCDDDD pattern. -/
theorem test_decode_illegal : decode [0x00#8] = .error (.illegalOpcode 0x00#8) ∧
    decode [0x02#8] = .error (.illegalOpcode 0x02#8) ∧
    decode [0x83#8, 0x00#8, 0x00#8] = .error (.illegalOpcode 0x83#8) := ⟨rfl, rfl, rfl⟩

/-- R67: only the operand bytes the instruction has are asked for. -/
theorem test_decode_missing : decode [] = .error (.missingByte 0) ∧ decode [0x82#8] = .error (.missingByte 1) ∧
    decode [0x82#8, 0x09#8] = .error (.missingByte 2) := ⟨rfl, rfl, rfl⟩

/-- spec/opcode_table.json numbers the opcode byte 7..0; the LDI row's 24 bits in that order, and 8 bits only. -/
theorem test_table_word_ldi : decodeTableWord 24 0x080082 = some (.ldi 0#8 8#8) ∧
    decodeTableWord 8 0x080082 = some (.ldi 0#8 0#8) := ⟨rfl, rfl⟩

/-- The placed word is the one the next step fetches, also where a 2-byte instruction stands at the top of memory. -/
theorem test_with_fetch_word : (State.reset.withFetchWord 16 0x0047).fetch = .ok (.prn 0#8) ∧
    ((place 254 []).withFetchWord 16 0x0347).fetch = .ok (.prn 3#8) := ⟨rfl, rfl⟩

/-! ## Reset and load -/

/-- R109. -/
theorem test_reset : State.reset.sp = 0xF4#8 ∧ State.reset.reg 0 = 0#8 ∧ State.reset.pc = 0#9 ∧
    State.reset.flags = ⟨false, false, false⟩ ∧ State.reset.out = [] := by decide

/-- P1's image: the first bytes and the first cell past it. -/
theorem test_launch : after (State.launch [0x82#8, 0x00#8, 0x08#8, 0x47#8, 0x00#8, 0x01#8])
    (fun s => s.byteAt 0 == 0x82#8 && s.byteAt 5 == 0x01#8 && s.byteAt 6 == 0#8 && s.sp == 0xF4#8) = true := by decide

/-- Memory.set keeps the canonical form: a later zero removes the entry. -/
theorem test_memory_canonical :
    Memory.set (Memory.set (Memory.set [] 9 1#8) 3 2#8) 9 0#8 = [(3, 2#8)] := by decide

/-! ## One step of each instruction -/

/-- V-HLT-2: HLT in the last cell. -/
theorem test_hlt_at_top : after (step (place 255 [0x01#8])) (fun t => t.run == .halted && t.pc == 256#9) = true := by
  decide

/-- V-HLT-3, V-DEC-6: no step from Halted or Faulted. -/
theorem test_no_step : step State.reset.halt = .fault .noStepHalted ∧
    step (State.reset.raise (.illegalOpcode 0#8)) = .fault .noStepFaulted := ⟨rfl, rfl⟩

/-- V-LDI-2. -/
theorem test_ldi : after (step (place 0 [0x82#8, 0x03#8, 0xFF#8]))
    (fun t => t.reg 3 == 0xFF#8 && t.reg 2 == 0#8 && t.pc == 3#9) = true := by decide

/-- V-LDI-6: the operand fetch fault wins over the bad register byte. -/
theorem test_ldi_top_fault : after (step (place 254 [0x82#8, 0x09#8]))
    (fun t => t.run == .faulted (.addressOutOfBounds 256) 254#9 && t.pc == 254#9) = true := by decide

/-- V-PRN-3. -/
theorem test_prn_sp : after (step (place 0 [0x47#8, 0x07#8])) (fun t => t.out == [244#8] && t.pc == 2#9) = true := by
  decide

/-- V-PRN-4. -/
theorem test_prn_bad_register : after (step (place 0 [0x47#8, 0x08#8]))
    (fun t => t.out == [] && t.run == .faulted (.registerIndexOutOfBounds 8#8) 0#9) = true := by decide

/-- V-ADD-2: 200 + 100 wraps to 44; no flag, the second register kept. -/
theorem test_add_wraps : after (step (((place 0 [0xA0#8, 0x00#8, 0x01#8]).setReg 0 200#8).setReg 1 100#8))
    (fun t => t.reg 0 == 44#8 && t.reg 1 == 100#8 && t.flags == ⟨false, false, false⟩) = true := by decide

/-- V-ADD-7: source and destination the same register. -/
theorem test_add_self : after (step ((place 0 [0xA0#8, 0x02#8, 0x02#8]).setReg 2 0x80#8))
    (fun t => t.reg 2 == 0#8 && t.pc == 3#9) = true := by decide

/-- V-MUL-3: only the low byte of 0xFE01. -/
theorem test_mul_low_byte : after (step (((place 0 [0xA2#8, 0x00#8, 0x01#8]).setReg 0 255#8).setReg 1 255#8))
    (fun t => t.reg 0 == 1#8 && t.reg 1 == 255#8) = true := by decide

/-- V-MUL-9: squaring. -/
theorem test_mul_self : after (step ((place 0 [0xA2#8, 0x03#8, 0x03#8]).setReg 3 12#8))
    (fun t => t.reg 3 == 144#8) = true := by decide

/-- V-CMP-6: unsigned. -/
theorem test_cmp_unsigned : after (step (((place 0 [0xA7#8, 0x00#8, 0x01#8]).setReg 0 0x80#8).setReg 1 0x7F#8))
    (fun t => t.flags == ⟨false, true, false⟩ && t.reg 0 == 0x80#8) = true := by decide

/-- V-CMP-9: the old L is cleared. -/
theorem test_cmp_clears : after (step (((place 0 [0xA7#8, 0x00#8, 0x01#8]).setReg 0 5#8).setReg 1 5#8
    |>.setFlags ⟨false, false, true⟩)) (fun t => t.flags == ⟨true, false, false⟩) = true := by decide

/-- V-JEQ-1. -/
theorem test_jeq_taken : after (step (((place 0x10 [0x55#8, 0x02#8]).setReg 2 0x20#8).setFlags ⟨true, false, false⟩))
    (fun t => t.pc == 0x20#9) = true := by decide

/-- V-JEQ-5: the index is checked although the jump would not be taken. -/
theorem test_jeq_bad_register : after (step (place 0 [0x55#8, 0x08#8]))
    (fun t => t.run == .faulted (.registerIndexOutOfBounds 8#8) 0#9) = true := by decide

/-- V-JNE-4: L is not read, the target is unsigned. -/
theorem test_jne_taken : after (step (((place 0 [0x56#8, 0x03#8]).setReg 3 0xFF#8).setFlags ⟨false, false, true⟩))
    (fun t => t.pc == 0xFF#9) = true := by decide

/-- V-JNE-2. -/
theorem test_jne_falls_through : after (step (((place 0x14 [0x56#8, 0x03#8]).setReg 3 0x0C#8).setFlags
    ⟨true, false, false⟩)) (fun t => t.pc == 0x16#9) = true := by decide

/-- V-JMP-2. -/
theorem test_jmp_sp : after (step (place 0 [0x54#8, 0x07#8])) (fun t => t.pc == 0xF4#9) = true := by decide

/-- V-JMP-4. -/
theorem test_jmp_top_fault : after (step (place 255 [0x54#8]))
    (fun t => t.run == .faulted (.addressOutOfBounds 256) 255#9) = true := by decide

/-- V-PUSH-3: PUSH R7 stores the decremented stack pointer. -/
theorem test_push_sp : after (step (place 0 [0x45#8, 0x07#8]))
    (fun t => t.sp == 0xF3#8 && t.byteAt 0xF3 == 0xF3#8 && t.pc == 2#9) = true := by decide

/-- V-PUSH-2: the stack pointer wraps. -/
theorem test_push_wraps : after (step (((place 0 [0x45#8, 0x00#8]).setReg 7 0#8).setReg 0 0x5A#8))
    (fun t => t.sp == 0xFF#8 && t.byteAt 0xFF == 0x5A#8) = true := by decide

/-- V-POP-3: POP R7 increments the loaded value. -/
theorem test_pop_sp : after (step (((place 0 [0x46#8, 0x07#8]).setReg 7 0xF3#8).setByte 0xF3 0x10#8))
    (fun t => t.sp == 0x11#8) = true := by decide

/-- V-POP-1: the popped cell keeps its value. -/
theorem test_pop : after (step (((place 15 [0x46#8, 0x03#8]).setReg 7 0xF3#8).setByte 0xF3 0x2A#8))
    (fun t => t.reg 3 == 0x2A#8 && t.sp == 0xF4#8 && t.byteAt 0xF3 == 0x2A#8 && t.pc == 17#9) = true := by decide

/-- V-CALL-2: CALL R7 jumps to the decremented stack pointer. -/
theorem test_call_sp : after (step (place 0x10 [0x50#8, 0x07#8]))
    (fun t => t.sp == 0xF3#8 && t.byteAt 0xF3 == 0x12#8 && t.pc == 0xF3#9) = true := by decide

/-- V-CALL-4: no return address at 254. -/
theorem test_call_top_fault : after (step (place 254 [0x50#8, 0x00#8]))
    (fun t => t.run == .faulted (.addressOutOfBounds 256) 254#9 && t.sp == 0xF4#8) = true := by decide

/-- V-RET-3: the stack pointer wraps. -/
theorem test_ret_wraps : after (step (((place 0x11 [0x11#8]).setReg 7 0xFF#8).setByte 0xFF 0x40#8))
    (fun t => t.pc == 0x40#9 && t.sp == 0#8) = true := by decide

/-- V-RET-2, its first step: RET on the empty stack is not detected. -/
theorem test_ret_empty : after (step (place 0 [0x11#8])) (fun t => t.pc == 0#9 && t.sp == 0xF5#8) = true := by decide

/-- V-DEC-5: a fetch at 256. -/
theorem test_fetch_at_256 : after (step (place 256 []))
    (fun t => t.run == .faulted (.addressOutOfBounds 256) 256#9) = true := by decide

/-- V-ALU-F2: the first bad operand is the one reported. -/
theorem test_first_bad_operand : after (step (place 0 [0xA0#8, 0x09#8, 0x0A#8]))
    (fun t => t.run == .faulted (.registerIndexOutOfBounds 9#8) 0#9) = true := by decide

/-! ## Witnesses: concrete states and operands that meet each statement's hypotheses -/

theorem witness_OpcodeMapOfTheSpec : opc .ret = opc .ret := rfl

theorem witness_DecodeOfEncodeIsIdentity : (∀ a b, opc a = opc b → a = b) ∧
    encodeWith opc (.ldi 0xFF#8 0xFF#8) ++ [0x01#8] = [0x82#8, 0xFF#8, 0xFF#8, 0x01#8] :=
  ⟨fun _ _ h => opc_injective h, rfl⟩

theorem witness_EncodeOfDecodeIsIdentity :
    decodeList opc [0x82#8, 0x07#8, 0xFF#8, 0x01#8] = .ok (.ldi 0x07#8 0xFF#8, [0x01#8]) := rfl

theorem witness_IllegalOpcodeFaultsAndNothingElse : (place 255 [0xFF#8]).run = .running ∧
    (place 255 [0xFF#8]).pc.toNat < 256 ∧
    mnemonicOf opc ((place 255 [0xFF#8]).byteAt (place 255 [0xFF#8]).pc.toNat) = none := by decide

theorem witness_RegisterByteIsTheIndex : (0x07#8).toNat < 8 ∧ 8 ≤ (0x08#8).toNat ∧ 8 ≤ (0xFF#8).toNat := by decide

/-- Both clauses at the bound: 255 is a cell, 256 is not. -/
theorem witness_MemReadBoundsAndValue : State.reset.memRead 255 = .ok 0#8 ∧
    State.reset.memRead 256 = .error (.addressOutOfBounds 256) := ⟨rfl, rfl⟩

theorem witness_MemWriteChangesOneCell : State.reset.memWrite 255 1#8 = .ok (State.reset.setByte 255 1#8) ∧
    State.reset.memWrite 256 1#8 = .error (.addressOutOfBounds 256) := ⟨rfl, rfl⟩

theorem witness_CanonicalMemoriesThatReadAlikeAreEqual :
    Memory.wf [(0, 1#8), (255, 2#8)] ∧ Memory.wf (Memory.set [(255, 2#8)] 0 1#8) ∧
      Memory.set [(255, 2#8)] 0 1#8 = [(0, 1#8), (255, 2#8)] := by decide

theorem witness_ResetRegisters : (6 : Fin 8).val < 7 ∧ State.reset.reg 6 = 0x00#8 := by decide

theorem witness_LaunchLoadsTheImage : (List.replicate 256 0x01#8).length ≤ 256 ∧ ([] : List Byte).length ≤ 256 :=
  ⟨List.length_replicate.le, Nat.zero_le _⟩

theorem witness_LaunchRefusesLongImages : 256 < (List.replicate 257 0x01#8).length :=
  List.length_replicate ▸ Nat.lt_succ_self 256

theorem witness_StepRunsTheDecodedInstruction : (place 253 [0x82#8, 0x00#8, 0x09#8]).run = .running ∧
    decode (place 253 [0x82#8, 0x00#8, 0x09#8]).codeBytes = .ok (.ldi 0#8 9#8, []) := ⟨rfl, rfl⟩

theorem witness_StepRunsTheInstructionAtPc : (place 253 [0x82#8, 0x00#8, 0x09#8]).run = .running ∧
    (place 253 [0x82#8, 0x00#8, 0x09#8]).pc.toNat + (encode (.ldi 0#8 9#8)).length ≤ 256 ∧
    ∀ k (h : k < (encode (.ldi 0#8 9#8)).length),
      (place 253 [0x82#8, 0x00#8, 0x09#8]).byteAt ((place 253 [0x82#8, 0x00#8, 0x09#8]).pc.toNat + k) =
        (encode (.ldi 0#8 9#8))[k] := by
  refine ⟨rfl, by decide, fun k h => ?_⟩
  have hk : k < 3 := h
  interval_cases k <;> rfl

theorem witness_StepExistsExactlyInRunning : State.reset.run = .running ∧ State.reset.halt.run = .halted ∧
    (State.reset.raise (.illegalOpcode 0#8)).run = .faulted (.illegalOpcode 0#8) 0#9 := by decide

/-- The six clauses of FaultPriority, each at the boundary of its range. -/
theorem witness_FaultPriority :
    (256 ≤ (place 256 []).pc.toNat) ∧
    ((place 255 [0x00#8]).pc.toNat < 256 ∧ mnemonicOf opc ((place 255 [0x00#8]).byteAt 255) = none) ∧
    ((place 255 [0x47#8]).pc.toNat = 255 ∧ (place 255 [0x47#8]).byteAt 255 = opc .prn ∧
      1 ≤ Mnemonic.prn.operandCount) ∧
    ((place 254 [0xA7#8, 0x00#8]).pc.toNat = 254 ∧ (place 254 [0xA7#8, 0x00#8]).byteAt 254 = opc .cmp ∧
      Mnemonic.cmp.operandCount = 2) ∧
    ((place 253 [0xA0#8, 0x07#8, 0x08#8]).fetch = .ok (.add 7#8 8#8) ∧ firstBadRegister (.add 7#8 8#8) = some 8#8) ∧
    ((place 254 [0x50#8, 0x07#8]).fetch = .ok (.call 7#8) ∧ (7#8).toNat < 8 ∧
      (place 254 [0x50#8, 0x07#8]).pc.toNat = 254) :=
  ⟨by decide, by decide, by decide, by decide, ⟨rfl, by decide⟩, ⟨rfl, by decide, by decide⟩⟩

theorem witness_BadRegisterOperandFaults : firstBadRegister (.jeq 8#8) = some 8#8 ∧
    firstBadRegister (.add 0#8 9#8) = some 9#8 ∧ firstBadRegister (.add 9#8 10#8) = some 9#8 := by decide

/-- Legal register bytes at the bound, for LDI, PRN, MUL, ADD, CMP, the jumps, PUSH, POP. -/
theorem witness_LdiCompletes : (7#8).toNat < 8 ∧ after (exec (.ldi 7#8 0xFF#8) State.reset) (·.sp == 0xFF#8) := by decide
theorem witness_PrnCompletes : (7#8).toNat < 8 ∧ after (exec (.prn 7#8) State.reset) (·.out == [0xF4#8]) := by decide
theorem witness_MulCompletes : (7#8).toNat < 8 ∧ (0#8).toNat < 8 ∧
    after (exec (.mul 7#8 0#8) State.reset) (·.sp == 0#8) := by decide
theorem witness_AddCompletes : (7#8).toNat < 8 ∧ (0#8).toNat < 8 ∧
    after (exec (.add 0#8 7#8) State.reset) (·.reg 0 == 0xF4#8) := by decide
theorem witness_CmpCompletes : (7#8).toNat < 8 ∧ (0#8).toNat < 8 ∧
    after (exec (.cmp 7#8 0#8) State.reset) (·.flags == ⟨false, true, false⟩) := by decide

/-- The clauses of LdiWholeRule: pc 256, 255, 254, and 253 with the register bytes 8 and 7. -/
theorem witness_LdiWholeRule :
    256 ≤ (place 256 []).pc.toNat ∧
    ((place 255 [0x82#8]).byteAt (place 255 [0x82#8]).pc.toNat = 0x82#8 ∧
      256 ≤ (place 255 [0x82#8]).pc.toNat + 1) ∧
    ((place 254 [0x82#8, 0x09#8]).byteAt 254 = 0x82#8 ∧ (place 254 [0x82#8, 0x09#8]).pc.toNat + 1 < 256 ∧
      256 ≤ (place 254 [0x82#8, 0x09#8]).pc.toNat + 2) ∧
    ((place 253 [0x82#8, 0x08#8, 0x01#8]).byteAt 253 = 0x82#8 ∧
      (place 253 [0x82#8, 0x08#8, 0x01#8]).pc.toNat + 2 < 256 ∧
      8 ≤ ((place 253 [0x82#8, 0x08#8, 0x01#8]).byteAt 254).toNat) ∧
    ((place 253 [0x82#8, 0x07#8, 0x01#8]).byteAt 253 = 0x82#8 ∧
      (place 253 [0x82#8, 0x07#8, 0x01#8]).pc.toNat + 2 < 256 ∧
      ((place 253 [0x82#8, 0x07#8, 0x01#8]).byteAt 254).toNat = (7 : Fin 8).val) := by decide

theorem witness_AluBlock : (7#8).toNat = (7 : Fin 8).val ∧ (0#8).toNat = (0 : Fin 8).val := by decide

theorem witness_JumpsComplete : (7#8).toNat < 8 ∧ State.reset.flags.e = false ∧
    (State.reset.setFlags ⟨true, false, false⟩).flags.e = true := by decide

theorem witness_PushCompletes : (7#8).toNat < 8 ∧ after (exec (.push 7#8) State.reset) (·.sp == 0xF3#8) := by decide

/-- Both clauses of PopCompletes: a register below 7, and 7. -/
theorem witness_PopCompletes : ((6#8).toNat < 8 ∧ (6#8).toNat ≠ 7) ∧ ((7#8).toNat < 8 ∧ (7#8).toNat = 7) := by decide

theorem witness_CallCompletes : (7#8).toNat < 8 ∧ (place 253 []).pc.toNat ≤ 253 ∧
    after (exec (.call 0#8) (place 253 [])) (fun t => t.byteAt 0xF3 == 0xFF#8 && t.pc == 0#9) := by decide

theorem witness_CallWithoutReturnAddressFaults : (7#8).toNat < 8 ∧ 254 ≤ (place 254 []).pc.toNat := by decide

theorem witness_StackAccessesNeverFault : (State.reset.setReg 7 0x00#8).sp = 0x00#8 ∧
    (State.reset.setReg 7 0xFF#8).sp = 0xFF#8 := by decide

theorem witness_PushThenPopRestores : (7#8).toNat < 8 ∧ (0#8).toNat < 8 := by decide

/-- V-CR-1 with the call site at its bound. -/
def callRet : State := ((place 253 [0x50#8, 0x01#8]).setReg 1 0x40#8).setByte 0x40 0x11#8

theorem witness_CallThenRetReturns : callRet.run = .running ∧ callRet.pc.toNat ≤ 253 ∧
    callRet.byteAt callRet.pc.toNat = opc .call ∧
    (callRet.byteAt (callRet.pc.toNat + 1)).toNat = (1 : Fin 8).val ∧ (1 : Fin 8) ≠ 7 ∧
    callRet.byteAt (callRet.reg 1).toNat = opc .ret ∧ (callRet.reg 1).toNat ≠ callRet.decSp.sp.toNat := by decide

theorem witness_CmpThenJeqFollowsEquality : (0#8).toNat < 8 ∧ (1#8).toNat < 8 ∧ (7#8).toNat < 8 ∧
    State.reset.reg 0 = State.reset.reg 1 ∧ State.reset.reg 0 ≠ State.reset.reg 7 := by decide

/-- The three clauses: a later fetch at the pushed byte, at a pushed return address, and CALL R7. -/
theorem witness_StoredByteIsFetched :
    after (exec (.push 0#8) State.reset)
      (fun t => { t with pc := 0xF3#9 }.pc.toNat == State.reset.decSp.sp.toNat) = true ∧
    (State.reset.pc.toNat ≤ 253 ∧ after (exec (.call 0#8) State.reset)
      (fun t => { t with pc := 0xF3#9 }.pc.toNat == State.reset.decSp.sp.toNat) = true) ∧
    after (exec (.call 7#8) State.reset) (fun t => t.fetchByte 0 == some 2#8) = true := by decide

/-- The clauses of FlagsWritersAndReaders: an instruction that is no CMP; a step that changes a flag; register bytes;
two states that differ in E alone and in G, L alone, with an instruction that completes. -/
theorem witness_FlagsWritersAndReaders :
    (∀ a b, Instr.hlt ≠ .cmp a b) ∧
    after (step (place 0 [0xA7#8, 0x00#8, 0x01#8])) (fun t => t.flags != State.reset.flags) = true ∧
    (7#8).toNat < 8 ∧
    ((∀ r, Instr.hlt ≠ .jeq r) ∧ (∀ r, Instr.hlt ≠ .jne r) ∧
      State.reset.blindE = (State.reset.setFlags ⟨true, false, false⟩).blindE) ∧
    (State.reset.blindGL = (State.reset.setFlags ⟨false, true, true⟩).blindGL ∧
      after (exec .hlt State.reset) (fun _ => true) = true) :=
  ⟨fun _ _ h => (by cases h), by decide, by decide, ⟨fun _ h => (by cases h), fun _ h => (by cases h), rfl⟩, rfl,
    by decide⟩

theorem witness_GreaterAndLessAreUnobservable :
    State.reset.blindGL = (State.reset.setFlags ⟨false, true, true⟩).blindGL ∧
      ∃ t, stepsTo 2 (place 0 [0x82#8, 0x00#8, 0x08#8]) t :=
  ⟨rfl, _, _, rfl, _, rfl, rfl⟩

theorem witness_OutputIsNeverRead : (place 0 [0x47#8, 0x07#8]).blindOut = ((place 0 [0x47#8, 0x07#8]).emit 1#8).blindOut ∧
    after (step (place 0 [0x47#8, 0x07#8])) (fun _ => true) = true := ⟨rfl, by decide⟩

theorem witness_HaltedOnlyByHlt : after (step (place 0 [0x01#8])) (·.run == .halted) = true := by decide

theorem witness_OutputGrowsOnlyByPrn : after (step (place 0 [0x47#8, 0x07#8])) (·.out != []) = true := by decide

theorem witness_OutputIsAppendOnlyAlongRuns : ∃ t, stepsTo 2 (place 0 [0x82#8, 0x00#8, 0x08#8]) t :=
  ⟨_, _, rfl, _, rfl, rfl⟩

theorem witness_MemoryWrittenOnlyByPushAndCall : after (step (place 0 [0x45#8, 0x07#8]))
    (fun t => t.byteAt 0xF3 != (place 0 [0x45#8, 0x07#8]).byteAt 0xF3) = true := by decide

theorem witness_RegistersWrittenAsTabled : after (step (place 0 [0x82#8, 0x03#8, 0xFF#8]))
    (fun t => t.reg 3 != (place 0 [0x82#8, 0x03#8, 0xFF#8]).reg 3) = true := by decide

theorem witness_FaultingStepWritesOnlyRun : after (step State.reset)
    (·.run == .faulted (.illegalOpcode 0#8) 0#9) = true := by decide

/-- The advance at its bound: LDI at 253 leaves 256 (V-LDI-5). -/
theorem witness_DefaultAdvanceNeverWraps : (place 253 [0x82#8, 0x00#8, 0x09#8]).fetch = .ok (.ldi 0#8 9#8) ∧
    isTransfer (.ldi 0#8 9#8) = false ∧
    after (step (place 253 [0x82#8, 0x00#8, 0x09#8])) (fun t => t.run == .running && t.pc == 256#9) = true :=
  ⟨rfl, rfl, by decide⟩

theorem witness_StepKeepsInvariant : (place 0 [0x45#8, 0x07#8]).Inv ∧
    after (step (place 0 [0x45#8, 0x07#8])) (fun _ => true) = true := ⟨⟨by decide, by decide, trivial⟩, by decide⟩

theorem witness_LaunchedRunsMeetInvariant : ∃ s t, State.launch [0x01#8] = .next s ∧ stepsTo 1 s t :=
  ⟨_, _, rfl, _, rfl, rfl⟩

/-- The three ways of OutOfBoundsOnlyInThreeWays. -/
theorem witness_OutOfBoundsOnlyInThreeWays : (place 256 []).Inv ∧
    after (step (place 256 [])) (·.run == .faulted (.addressOutOfBounds 256) 256#9) = true ∧
    after (step (place 254 [0x82#8])) (·.run == .faulted (.addressOutOfBounds 256) 254#9) = true ∧
    after (step (place 254 [0x50#8, 0x00#8])) (·.run == .faulted (.addressOutOfBounds 256) 254#9) = true :=
  ⟨⟨by decide, by decide, trivial⟩, by decide, by decide, by decide⟩

theorem witness_FaultedIsTerminal : (State.reset.raise (.illegalOpcode 0#8)).run = .faulted (.illegalOpcode 0#8) 0#9 ∧
    stepsTo 0 (State.reset.raise (.illegalOpcode 0#8)) (State.reset.raise (.illegalOpcode 0#8)) := ⟨rfl, rfl⟩

/-- Both ways out of Running: the fault of an empty memory, and an HLT at the last address. -/
theorem witness_RunIsInfiniteIffItNeverEnds : stepsTo 0 State.reset State.reset ∧ State.reset.run = .running ∧
    after (step State.reset) (·.run == .faulted (.illegalOpcode 0#8) 0#9) = true ∧
    (place 255 [0x01#8]).run = .running ∧ (place 255 [0x01#8]).fetch = .ok .hlt ∧
    after (step (place 255 [0x01#8])) (·.run == .halted) = true :=
  ⟨rfl, rfl, by decide, rfl, rfl, by decide⟩

/-- P9's loop, at the highest address a JMP can stand. -/
def selfJump : State := (place 254 [0x54#8, 0x00#8]).setReg 0 0xFE#8

theorem witness_JumpToItselfRunsForever : selfJump.run = .running ∧ selfJump.pc.toNat ≤ 254 ∧
    selfJump.byteAt selfJump.pc.toNat = opc .jmp ∧
    (selfJump.byteAt (selfJump.pc.toNat + 1)).toNat = (0 : Fin 8).val ∧
    (selfJump.reg 0).toNat = selfJump.pc.toNat := by decide

end Sys2Proof.Tests
end

/-! ## Proofs: state, flags and launch (10_state.md)

A change of the flags commutes with every instruction but CMP, which forgets it, and JEQ and JNE, which branch on E:
`exec_setFlags`. The two blindness clauses of R28 are read off that one law. -/

namespace Sys2Proof.Machine

/-! ### A change of the state that commutes with raising commutes with the end of a step -/

section Transport
variable (φ : State → State) {s t : State}

theorem State.settle_map {x : Except Cause State} (hφ : ∀ c, (φ s).raise c = φ (s.raise c))
    (h : s.settle x = .next t) : (φ s).settle (x.map φ) = .next (φ t) := by
  cases x with
  | ok u => exact congrArg (Host.Outcome.next ∘ φ) (Host.Outcome.next.inj h)
  | error c => exact congrArg Host.Outcome.next ((hφ c).trans (congrArg φ (Host.Outcome.next.inj h)))

theorem State.withReg_map {b : Byte} {rule rule' : Fin 8 → Except Cause State}
    (hφ : ∀ c, (φ s).raise c = φ (s.raise c)) (hr : ∀ a, rule' a = (rule a).map φ)
    (h : s.withReg b rule = .next t) : (φ s).withReg b rule' = .next (φ t) := by
  have key := State.settle_map φ hφ h
  cases hb : regIdx b <;> simpa only [State.withReg, hb, hr, Except.map] using key

theorem State.withRegs_map {b c : Byte} {rule rule' : Fin 8 → Fin 8 → Except Cause State}
    (hφ : ∀ c, (φ s).raise c = φ (s.raise c)) (hr : ∀ a b, rule' a b = (rule a b).map φ)
    (h : s.withRegs b c rule = .next t) : (φ s).withRegs b c rule' = .next (φ t) := by
  have key := State.settle_map φ hφ h
  cases hb : regIdx b <;> cases hc : regIdx c <;> simpa only [State.withRegs, hb, hc, hr, Except.map] using key

end Transport

/-! ### States that differ in some flags alone -/

theorem State.blindE_eq_iff {s s' : State} :
    s.blindE = s'.blindE ↔ ∃ f : Flags, s' = s.setFlags f ∧ f.g = s.flags.g ∧ f.l = s.flags.l := by
  constructor
  · obtain ⟨regs, pc, ⟨e, g, l⟩, run, out, mem⟩ := s
    obtain ⟨regs', pc', f', run', out', mem'⟩ := s'
    intro h
    refine ⟨f', ?_⟩
    simp_all [State.blindE, State.setFlags]
  · rintro ⟨f, rfl, hg, hl⟩
    simp [State.blindE, State.setFlags, hg, hl]

theorem State.blindGL_eq_iff {s s' : State} :
    s.blindGL = s'.blindGL ↔ ∃ f : Flags, s' = s.setFlags f ∧ f.e = s.flags.e := by
  constructor
  · obtain ⟨regs, pc, ⟨e, g, l⟩, run, out, mem⟩ := s
    obtain ⟨regs', pc', f', run', out', mem'⟩ := s'
    intro h
    refine ⟨f', ?_⟩
    simp_all [State.blindGL, State.setFlags]
  · rintro ⟨f, rfl, he⟩
    simp [State.blindGL, State.setFlags, he]

/-! ### Who writes the flags -/

/-- Only CMP writes a flag (R28). -/
theorem exec_flags_of_ne_cmp {i : Instr} {s t : State} (hi : ∀ a b, i ≠ .cmp a b) (h : exec i s = .next t) :
    t.flags = s.flags := by
  rcases exec_next_cases h with ⟨c, -, rfl⟩ | he
  · exact State.raise_flags s c
  cases i with
  | cmp a b => exact absurd rfl (hi a b)
  | hlt | ret => rw [he]; rfl
  | ldi | prn | jmp | push | pop => obtain ⟨_, -, rfl⟩ := he; rfl
  | jeq | jne => obtain ⟨_, -, rfl⟩ := he; exact State.jumpIf_flags _ _ _
  | mul | add => obtain ⟨_, _, -, -, rfl⟩ := he; rfl
  | call => obtain ⟨_, -, -, rfl⟩ := he; rfl

theorem step_changes_flags_only_by_cmp {s t : State} (h : step s = .next t) (hf : t.flags ≠ s.flags) :
    ∃ a b, s.fetch = .ok (.cmp a b) := by
  obtain ⟨-, ⟨c, -, rfl⟩ | ⟨i, hi, he⟩⟩ := step_next_cases h
  · exact absurd (State.raise_flags s c) hf
  · by_contra hno
    exact hf (exec_flags_of_ne_cmp (fun a b hc => hno ⟨a, b, hc ▸ hi⟩) he)

/-- CMP leaves exactly one flag set (R80). -/
theorem compareFlags_one_set (u v : Byte) : compareFlags u v = ⟨true, false, false⟩ ∨
    compareFlags u v = ⟨false, true, false⟩ ∨ compareFlags u v = ⟨false, false, true⟩ := by
  rcases lt_trichotomy u.toNat v.toNat with h | h | h
  · exact .inr (.inr (by simp [compareFlags, h, h.ne, h.le]))
  · exact .inl (by simp [compareFlags, h])
  · exact .inr (.inl (by simp [compareFlags, h, h.ne', h.le]))

/-- CMP forgets the flags it finds (R80). -/
theorem exec_cmp_setFlags {a b : Byte} (s : State) (f : Flags) (ha : a.toNat < 8) (hb : b.toNat < 8) :
    exec (.cmp a b) (s.setFlags f) = exec (.cmp a b) s := by
  rw [exec_cmp _ ha hb, exec_cmp _ ha hb]; rfl

/-! ### Who reads the flags -/

theorem State.jumpIf_setFlags (s : State) (f : Flags) (taken : Bool) (a : Fin 8) :
    (s.setFlags f).jumpIf taken a = (s.jumpIf taken a).setFlags f := by
  cases taken <;> rfl

/-- Other flags in the state before an instruction that neither writes the flags nor branches on a changed E are other
flags in the state after it, and nothing else. -/
theorem exec_setFlags_of_ne_cmp {i : Instr} {s t : State} {f : Flags} (hi : ∀ a b, i ≠ .cmp a b)
    (hE : f.e = s.flags.e ∨ (∀ r, i ≠ .jeq r) ∧ ∀ r, i ≠ .jne r) (h : exec i s = .next t) :
    exec i (s.setFlags f) = .next (t.setFlags f) := by
  have hφ : ∀ c, (s.setFlags f).raise c = (s.raise c).setFlags f := fun _ => rfl
  cases i with
  | cmp a b => exact absurd rfl (hi a b)
  | hlt => rw [exec_hlt] at h ⊢; cases h; rfl
  | ldi | prn | jmp => exact State.withReg_map (·.setFlags f) hφ (fun _ => rfl) h
  | mul | add => exact State.withRegs_map (·.setFlags f) hφ (fun _ _ => rfl) h
  | jeq r =>
    have he := hE.resolve_right (fun hn => hn.1 r rfl)
    exact State.withReg_map (·.setFlags f) hφ
      (fun a => congrArg Except.ok (he ▸ State.jumpIf_setFlags s f f.e a)) h
  | jne r =>
    have he := hE.resolve_right (fun hn => hn.2 r rfl)
    exact State.withReg_map (·.setFlags f) hφ
      (fun a => congrArg Except.ok (he ▸ State.jumpIf_setFlags s f (!f.e) a)) h
  | push => exact State.withReg_map (·.setFlags f) hφ (fun _ => by simp only [State.pushByte_eq]; rfl) h
  | pop => exact State.withReg_map (·.setFlags f) hφ (fun _ => by simp only [State.popLoad_eq]; rfl) h
  | call =>
    refine State.withReg_map (·.setFlags f) hφ (fun _ => ?_) h
    have hra : (s.setFlags f).returnAddress = s.returnAddress := rfl
    rw [hra]
    cases s.returnAddress with
    | error c => rfl
    | ok ra => simp only [State.pushByte_eq]; rfl
  | ret => rw [exec_ret] at h ⊢; cases h; rfl

/-- What becomes of other flags in the state before an instruction that does not branch on a changed E: they stand in
the state after it, or, after a CMP, they are gone. -/
theorem exec_setFlags {i : Instr} {s t : State} {f : Flags}
    (hE : f.e = s.flags.e ∨ (∀ r, i ≠ .jeq r) ∧ ∀ r, i ≠ .jne r) (h : exec i s = .next t) :
    (t.flags = s.flags ∧ exec i (s.setFlags f) = .next (t.setFlags f)) ∨ exec i (s.setFlags f) = .next t := by
  by_cases hi : ∃ a b, i = .cmp a b
  · obtain ⟨a, b, rfl⟩ := hi
    by_cases hab : a.toNat < 8 ∧ b.toNat < 8
    · exact .inr ((exec_cmp_setFlags s f hab.1 hab.2).trans h)
    · have hbad (u : State) : exec (.cmp a b) u =
          .next (u.raise (.registerIndexOutOfBounds (if 8 ≤ a.toNat then a else b))) :=
        State.withRegs_error (by omega)
      rw [hbad] at h ⊢
      cases h
      exact .inl ⟨rfl, rfl⟩
  · have hne : ∀ a b, i ≠ .cmp a b := fun a b hab => hi ⟨a, b, hab⟩
    exact .inl ⟨exec_flags_of_ne_cmp hne h, exec_setFlags_of_ne_cmp hne hE h⟩

/-- E is read by JEQ and JNE alone (R28). -/
theorem exec_blindE {i : Instr} {s s' t : State} (hjeq : ∀ r, i ≠ .jeq r) (hjne : ∀ r, i ≠ .jne r)
    (hs : s.blindE = s'.blindE) (h : exec i s = .next t) : ∃ t', exec i s' = .next t' ∧ t.blindE = t'.blindE := by
  obtain ⟨f, rfl, hg, hl⟩ := State.blindE_eq_iff.mp hs
  rcases exec_setFlags (.inr ⟨hjeq, hjne⟩) h with ⟨hf, h'⟩ | h'
  · exact ⟨_, h', State.blindE_eq_iff.mpr ⟨f, rfl, by rw [hf, hg], by rw [hf, hl]⟩⟩
  · exact ⟨_, h', rfl⟩

/-- G and L are read by no instruction (R28). -/
theorem exec_blindGL {i : Instr} {s s' t : State} (hs : s.blindGL = s'.blindGL) (h : exec i s = .next t) :
    ∃ t', exec i s' = .next t' ∧ t.blindGL = t'.blindGL := by
  obtain ⟨f, rfl, he⟩ := State.blindGL_eq_iff.mp hs
  rcases exec_setFlags (.inl he) h with ⟨hf, h'⟩ | h'
  · exact ⟨_, h', State.blindGL_eq_iff.mpr ⟨f, rfl, by rw [hf, he]⟩⟩
  · exact ⟨_, h', rfl⟩

/-- Settles O41: CMP is the only writer, the jumps' equations give the readers of E, and the two blindness clauses
follow from `exec_setFlags`. -/
theorem flagsWritersAndReaders : Obligations.FlagsWritersAndReaders := by
  refine ⟨fun _ _ _ => exec_flags_of_ne_cmp, fun _ _ => step_changes_flags_only_by_cmp, ?cmp, ?jumps,
    fun _ _ _ _ => exec_blindE, fun _ _ _ _ => exec_blindGL⟩
  case cmp =>
    intro s f a b ha hb
    have h := exec_cmp s ha hb
    exact ⟨_, _, h, (exec_cmp_setFlags s f ha hb).trans h, rfl, compareFlags_one_set _ _⟩
  case jumps =>
    intro s r hr
    refine ⟨_, _, exec_jeq s hr, exec_jne s hr, State.jumpIf_pc _ _ _, ?_⟩
    rw [State.jumpIf_pc]
    cases s.flags.e <;> rfl

/-! ### Reset and launch -/

/-- Settles O13: the load writes the image over a memory that reads 0x00 everywhere. -/
theorem launchLoadsTheImage : Obligations.LaunchLoadsTheImage := by
  have hzero : ∀ a, State.reset.byteAt a = 0x00#8 := fun _ => rfl
  refine ⟨hzero, fun img himg => ?_⟩
  obtain ⟨m, hload, -, hget⟩ := State.loadAt_ok img State.reset 0 (by omega)
  have hcell : ∀ a, Memory.get m a = (img[a]?).getD 0x00#8 := fun a => by
    rw [hget, if_pos (Nat.zero_le a), hzero, Nat.sub_zero]
  refine ⟨{ State.reset with mem := m }, by rw [State.launch, hload], fun i hi => ?_, fun a ha => ?_,
    rfl, rfl, rfl, rfl, rfl⟩
  · rw [State.byteAt, hcell, List.getElem?_eq_getElem hi]; rfl
  · rw [State.byteAt, hcell, List.getElem?_eq_none ha]; rfl

/-- Settles O11: the eight registers of the reset state, read one by one (R35). -/
theorem resetRegisters : Obligations.ResetRegisters := ⟨by decide, rfl⟩

end Sys2Proof.Machine

namespace Sys2Proof.Machine

/-! ### Memory -/

/-- A write to a cell leaves every other cell as it was. -/
theorem State.sameMemBut_setByte (s : State) (a : Nat) (v : Byte) : s.sameMemBut (s.setByte a v) a := fun b hb => by
  rw [State.setByte_byteAt, if_neg hb]

/-- Settles O9: below the bound MemWrite is the write to the cell, which reads the byte and keeps the other cells; no
other field is touched. -/
theorem memWriteChangesOneCell : Obligations.MemWriteChangesOneCell := fun s a v =>
  ⟨State.memWrite_of_le, fun ha => ⟨s.setByte a v, State.memWrite_of_lt ha, State.setByte_byteAt_self s a v,
    State.sameMemBut_setByte s a v, State.setByte_regs s a v, State.setByte_pc s a v, State.setByte_flags s a v,
    State.setByte_run s a v, State.setByte_out s a v⟩⟩

/-- Settles O8: the two sides of MemRead's bounds check. -/
theorem memReadBoundsAndValue : Obligations.MemReadBoundsAndValue := fun _ _ =>
  ⟨State.memRead_of_le, State.memRead_of_lt⟩

end Sys2Proof.Machine

namespace Sys2Proof.Machine

/-! ### Encoding -/

/-- Of the 256 byte values exactly thirteen are opcodes, whichever injective assignment is taken: the selecting values
are the thirteen opcodes, each once. -/
theorem length_filter_mnemonicOf_isSome {f : Mnemonic → Byte} (hf : Function.Injective f) :
    ((List.range 256).filter fun n => (mnemonicOf f (BitVec.ofNat 8 n)).isSome).length = 13 := by
  have hnodup : (Mnemonic.all.map fun m => (f m).toNat).Nodup :=
    List.Nodup.map (BitVec.toNat_injective.comp hf) (by decide)
  have hmem : ∀ n, n ∈ (List.range 256).filter (fun n => (mnemonicOf f (BitVec.ofNat 8 n)).isSome) ↔
      n ∈ Mnemonic.all.map fun m => (f m).toNat := by
    intro n
    simp only [List.mem_filter, List.mem_range, List.mem_map, Option.isSome_iff_exists]
    constructor
    · rintro ⟨hn, m, hm⟩
      exact ⟨m, m.mem_all, by rw [mnemonicOf_some hm, BitVec.toNat_ofNat, Nat.mod_eq_of_lt hn]⟩
    · rintro ⟨m, -, rfl⟩
      exact ⟨(f m).isLt, m, by rw [BitVec.ofNat_toNat, BitVec.setWidth_eq, mnemonicOf_self hf]⟩
  rw [((List.perm_ext_iff_of_nodup (List.nodup_range.filter _) hnodup).mpr hmem).length_eq]
  rfl

/-- The other 243 byte values are illegal (R64). -/
theorem length_filter_mnemonicOf_isNone {f : Mnemonic → Byte} (hf : Function.Injective f) :
    ((List.range 256).filter fun n => (mnemonicOf f (BitVec.ofNat 8 n)).isNone).length = 243 := by
  have hsplit := List.length_eq_length_filter_add (l := List.range 256)
    fun n => (mnemonicOf f (BitVec.ofNat 8 n)).isSome
  simp only [List.length_range, length_filter_mnemonicOf_isSome hf, Option.not_isSome] at hsplit
  omega

/-- An opcode byte that selects nothing ends decoding before any operand byte is read (R67, R100). -/
theorem decodeWith_of_illegal {f : Mnemonic → Byte} {read : Nat → Option Byte} {b : Byte} (h0 : read 0 = some b)
    (hb : mnemonicOf f b = none) : decodeWith f read = .error (.illegalOpcode b) := by
  simp only [decodeWith, h0, hb]

/-- A fetch at a cell that holds no opcode faults with its byte, whatever the later cells hold (R93). -/
theorem State.fetch_of_illegal {s : State} (hp : s.pc.toNat < 256)
    (hb : mnemonicOf opc (s.byteAt s.pc.toNat) = none) : s.fetch = .error (.illegalOpcode (s.byteAt s.pc.toNat)) := by
  have h0 : s.fetchByte 0 = some (s.byteAt s.pc.toNat) := State.fetchByte_of_lt hp
  simp only [State.fetch, decodeWith_of_illegal h0 hb, State.fetchCause]

/-- Settles O5: decoding stops at the opcode byte, so the step is the raise of its fault. -/
theorem illegalOpcodeFaultsAndNothingElse : Obligations.IllegalOpcodeFaultsAndNothingElse :=
  ⟨fun _ => mnemonicOf_none, length_filter_mnemonicOf_isNone opc_injective, by decide,
    fun _ hrun hp hb => step_of_fetch_error hrun (State.fetch_of_illegal hp hb)⟩

theorem regByteOk_iff {b : Byte} : regByteOk b = true ↔ b.toNat < 8 := decide_eq_true_iff

/-- An instruction is well formed exactly when each of its register bytes names a register (R58, R62). -/
theorem wf_iff_regOperands (i : Instr) : i.wf = true ↔ ∀ b ∈ regOperands i, b.toNat < 8 := by
  cases i <;> simp [Instr.wf, regOperands, regByteOk_iff]

/-- Settles O2: the encodings are the formats' bytes by computation; well-formedness is read off the register bytes of
each format and the operand count off its operand bytes. -/
theorem formatsAndOperandCounts : Obligations.FormatsAndOperandCounts := by
  intro r imm a b
  refine ⟨⟨rfl, rfl⟩, ⟨rfl, rfl, rfl, rfl, rfl, rfl, rfl⟩, ⟨rfl, rfl, rfl⟩, rfl, ?_, ?_, ?_, ?_, ?_⟩
  · simp [wf_iff_regOperands, regOperands]
  · simp [wf_iff_regOperands, regOperands]
  · simp [wf_iff_regOperands, regOperands, ← Instr.operands_length, Instr.operands]
  · simp [← Instr.operands_length, Instr.operands]
  · simp [← Instr.operands_length, Instr.operands]

/-- Settles O22: LDI is one register write and the advance by 3, which touch no other field. -/
theorem ldiCompletes : Obligations.LdiCompletes := fun s r imm h =>
  ⟨(s.setReg ⟨r.toNat, h⟩ imm).advance 3, exec_ldi imm s h, State.setReg_reg_self s _ imm, rfl,
    fun _ hj => State.setReg_reg_ne s imm (List.ne_of_not_mem_cons hj), rfl, rfl, rfl, fun _ => rfl⟩

end Sys2Proof.Machine

namespace Sys2Proof

/-! ### The instruction a mnemonic makes of two bytes -/

/-- A mnemonic takes the first N of the bytes it is offered (R58, R59). -/
@[simp] theorem Mnemonic.assemble_operands (m : Mnemonic) (x y : Byte) :
    (m.assemble x y).operands = [x, y].take m.operandCount := by
  cases m <;> rfl

@[simp] theorem Mnemonic.assemble_length (m : Mnemonic) (x y : Byte) :
    (m.assemble x y).length = m.operandCount + 1 := by
  rw [Instr.length, Mnemonic.assemble_mnemonic]

end Sys2Proof

namespace Sys2Proof.Machine

/-! ### The fetch, by the opcode that stands at pc -/

/-- Nothing is fetched from a pc past the last cell (R67 stage 1). -/
theorem State.fetch_of_pc_past_memory {s : State} (hp : 256 ≤ s.pc.toNat) :
    s.fetch = .error (.addressOutOfBounds s.pc.toNat) := by
  cases hf : s.fetch with
  | ok i =>
    obtain ⟨hfits, -⟩ := State.fetch_ok hf
    have := i.length_pos
    omega
  | error c =>
    obtain ⟨-, rfl⟩ | ⟨hlt, -, -⟩ | ⟨hlt, -⟩ := State.fetch_error hf
    · rfl
    · omega
    · omega

/-- A fetched instruction is one of the mnemonic whose opcode stands at pc. -/
theorem State.mnemonic_of_fetch_ok {s : State} {i : Instr} {m : Mnemonic} (hm : s.byteAt s.pc.toNat = opc m)
    (hf : s.fetch = .ok i) : i.mnemonic = m := by
  obtain ⟨-, hbytes⟩ := State.fetch_ok hf
  have h0 : opc i.mnemonic = s.byteAt s.pc.toNat := Option.some.inj (hbytes 0 i.length_pos)
  exact opc_injective (h0.trans hm)

/-- An opcode whose operand bytes run past the last cell faults at 256, the first address that is no cell (R67 stage 3,
R100). -/
theorem State.fetch_of_operands_past_memory {s : State} {m : Mnemonic} (hp : s.pc.toNat < 256)
    (hm : s.byteAt s.pc.toNat = opc m) (hend : 256 ≤ s.pc.toNat + m.operandCount) :
    s.fetch = .error (.addressOutOfBounds 256) := by
  cases hf : s.fetch with
  | ok i =>
    obtain ⟨hfits, -⟩ := State.fetch_ok hf
    rw [Instr.length, State.mnemonic_of_fetch_ok hm hf] at hfits
    omega
  | error c =>
    obtain ⟨hge, -⟩ | ⟨-, hnone, -⟩ | ⟨-, -, -, -, -, -, -, rfl⟩ := State.fetch_error hf
    · omega
    · exact absurd hm.symm (mnemonicOf_none.mp hnone m)
    · rfl

/-- An opcode whose operand bytes are all cells is fetched with them (R67 stages 1 to 3). -/
theorem State.fetch_of_opcode {s : State} {m : Mnemonic} (hm : s.byteAt s.pc.toNat = opc m)
    (hend : s.pc.toNat + m.operandCount < 256) :
    s.fetch = .ok (m.assemble (s.byteAt (s.pc.toNat + 1)) (s.byteAt (s.pc.toNat + 2))) := by
  refine State.fetch_of_bytes (by rw [Mnemonic.assemble_length]; omega) fun k hk => ?_
  rw [Mnemonic.assemble_length] at hk
  rw [encode, encodeWith, Mnemonic.assemble_mnemonic, Mnemonic.assemble_operands, ← List.take_succ_cons,
    List.getElem?_take_of_lt hk]
  have hk3 : k < 3 := hk.trans_le (Nat.succ_le_succ m.operandCount_le)
  interval_cases k
  · exact congrArg some hm.symm
  · rfl
  · rfl

/-! ### LDI at the step -/

/-- The advance as a number: it does not wrap while the sum fits in nine bits (R26). -/
theorem State.advance_pc_toNat {s : State} {n : Nat} (h : s.pc.toNat + n < 512) :
    (s.advance n).pc.toNat = s.pc.toNat + n := by
  rw [State.advance_pc, BitVec.toNat_add, BitVec.toNat_ofNat]
  omega

/-- Settles O23: the fetch fails at the first address past memory or gives the three bytes at pc, and then LDI's meaning
checks the register byte and completes as `ldiCompletes` says; below pc 254 its advance does not wrap. -/
theorem ldiWholeRule : Obligations.LdiWholeRule := by
  refine ⟨rfl, fun s hrun => ⟨fun hp => ?pcPast, fun hp hop => ⟨fun h1 => ?regPast, fun h1 h2 => ?immPast,
    fun h2 hbad => ?badRegister, fun r h2 hr => ?completes⟩⟩⟩
  case pcPast => exact step_of_fetch_error hrun (State.fetch_of_pc_past_memory hp)
  case regPast =>
    rw [show s.pc.toNat + 1 = 256 by omega]
    exact step_of_fetch_error hrun
      (State.fetch_of_operands_past_memory (m := .ldi) hp hop (h1.trans (Nat.le_succ _)))
  case immPast =>
    rw [show s.pc.toNat + 2 = 256 by omega]
    exact step_of_fetch_error hrun (State.fetch_of_operands_past_memory (m := .ldi) hp hop h2)
  case badRegister =>
    exact (step_of_fetch hrun (State.fetch_of_opcode (m := .ldi) hop h2)).trans (State.withReg_error hbad)
  case completes =>
    have hstep := step_of_fetch hrun (State.fetch_of_opcode (m := .ldi) hop h2)
    have hr8 : (s.byteAt (s.pc.toNat + 1)).toNat < 8 := hr ▸ r.isLt
    obtain rfl : ⟨_, hr8⟩ = r := Fin.ext hr
    obtain ⟨t, hexec, hreg, hpc, hframe⟩ := ldiCompletes s _ (s.byteAt (s.pc.toNat + 2)) hr8
    have hpc3 : t.pc.toNat = s.pc.toNat + 3 := by
      rw [hpc]
      exact State.advance_pc_toNat (by omega)
    exact ⟨t, hstep.trans hexec, hreg, hpc3, hframe⟩

end Sys2Proof.Machine

namespace Sys2Proof.Machine

/-! ### The ALU block (41_alu.md) -/

/-- The operation input is a closed set of three (R77). -/
theorem AluOp.eq_mul_or_add_or_cmp (op : AluOp) : op = .mul ∨ op = .add ∨ op = .cmp := by
  cases op <;> decide

/-- MUL leaves the product modulo 256 in the first register, which may also be the second (R78). -/
theorem State.alu_mul_reg_toNat (s : State) (a b : Fin 8) :
    ((s.alu .mul a b).reg a).toNat = ((s.reg a).toNat * (s.reg b).toNat) % 256 := by
  rw [State.alu, State.setReg_reg_self, mulByte_toNat]

/-- ADD leaves the sum modulo 256 in the first register, which may also be the second (R79). -/
theorem State.alu_add_reg_toNat (s : State) (a b : Fin 8) :
    ((s.alu .add a b).reg a).toNat = ((s.reg a).toNat + (s.reg b).toNat) % 256 := by
  rw [State.alu, State.setReg_reg_self, addByte_toNat]

@[simp] theorem State.alu_cmp_flags (s : State) (a b : Fin 8) :
    (s.alu .cmp a b).flags = compareFlags (s.reg a) (s.reg b) := rfl

/-- CMP writes no register (R80). -/
theorem State.sameRegs_alu_cmp (s : State) (a b : Fin 8) : s.sameRegs (s.alu .cmp a b) := fun _ => rfl

theorem State.sameRegsBut_alu (s : State) (op : AluOp) (a b : Fin 8) : s.sameRegsBut (s.alu op a b) [a] :=
  fun _ hj => State.alu_reg_ne s op (List.ne_of_not_mem_cons hj)

/-- MUL and ADD write no flag (R78, R79). -/
theorem State.alu_flags_of_ne_cmp (s : State) {op : AluOp} (a b : Fin 8) (h : op ≠ .cmp) :
    (s.alu op a b).flags = s.flags := by
  cases op with
  | mul | add => exact State.setReg_flags _ _ _
  | cmp => exact absurd rfl h

theorem State.sameMem_alu (s : State) (op : AluOp) (a b : Fin 8) : s.sameMem (s.alu op a b) := fun _ => by
  rw [State.byteAt, State.alu_mem, State.byteAt]

/-- The ALU leaves pc alone, so the engine's advance is counted from the pc before it (R77). -/
theorem State.alu_advance (s : State) (op : AluOp) (a b : Fin 8) (n : Nat) :
    (s.alu op a b).advance n = { s.alu op a b with pc := s.pc + BitVec.ofNat 9 n } := by
  rw [State.advance, State.setPc, State.alu_pc]

/-- Settles O28: the ALU is one write, of the first register or of the flags, and the engine advances its result by 3;
the operand bytes name the registers as they stand. -/
theorem aluBlock : Obligations.AluBlock := by
  refine ⟨AluOp.eq_mul_or_add_or_cmp, fun s a b => ⟨?computes, ?registers, ?flags, fun op => ?untouched, ?engine⟩⟩
  case computes => exact ⟨s.alu_mul_reg_toNat a b, s.alu_add_reg_toNat a b, s.alu_cmp_flags a b⟩
  case registers => exact ⟨s.sameRegsBut_alu .mul a b, s.sameRegsBut_alu .add a b, s.sameRegs_alu_cmp a b⟩
  case flags => exact ⟨s.alu_flags_of_ne_cmp a b (by decide), s.alu_flags_of_ne_cmp a b (by decide)⟩
  case untouched => exact ⟨s.alu_pc op a b, s.alu_run op a b, s.alu_out op a b, s.sameMem_alu op a b⟩
  case engine =>
    intro x y hx hy
    have hx8 : x.toNat < 8 := hx ▸ a.isLt
    have hy8 : y.toNat < 8 := hy ▸ b.isLt
    obtain rfl : ⟨_, hx8⟩ = a := Fin.ext hx
    obtain rfl : ⟨_, hy8⟩ = b := Fin.ext hy
    rw [exec_mul s hx8 hy8, exec_add s hx8 hy8, exec_cmp s hx8 hy8]
    simp only [State.alu_advance, and_self]

end Sys2Proof.Machine

namespace Sys2Proof.Machine

/-! ### The jumps (42_jumps.md) -/

/-- A control transfer writes pc and nothing else (R82). -/
theorem State.jumpTo_eq (s : State) (t : Byte) : s.jumpTo t = { s with pc := t.setWidth 9 } := rfl

/-- A jump that is taken is the transfer to the register's value, with nothing added (R82). -/
theorem State.jumpIf_true (s : State) (r : Fin 8) :
    s.jumpIf true r = { s with pc := (s.reg r).setWidth 9 } := rfl

/-- A jump that is not taken is the default advance by its length (R82). -/
theorem State.jumpIf_false (s : State) (r : Fin 8) : s.jumpIf false r = { s with pc := s.pc + 2#9 } := rfl

/-- A jump target is the byte's own number: widening adds nothing (R82). -/
theorem jumpTarget_toNat (t : Byte) : (t.setWidth 9).toNat = t.toNat := BitVec.toNat_setWidth_of_le (by decide)

/-- Settles O29: JMP is the transfer; JEQ and JNE are it or the advance, by the value of E, which is all they read of
the flags. -/
theorem jumpsComplete : Obligations.JumpsComplete := by
  intro s r h
  refine ⟨?jmp, fun hE => ?jeqTaken, fun hE => ?jeqNotTaken, fun hE => ?jneTaken, fun hE => ?jneNotTaken,
    jumpTarget_toNat _, (jumpTarget_toNat _).trans_lt (s.reg ⟨r.toNat, h⟩).isLt⟩
  case jmp => rw [exec_jmp s h, State.jumpTo_eq]
  case jeqTaken => rw [exec_jeq s h, hE, State.jumpIf_true]
  case jeqNotTaken => rw [exec_jeq s h, hE, State.jumpIf_false]
  case jneTaken => rw [exec_jne s h, hE, Bool.not_false, State.jumpIf_true]
  case jneNotTaken => rw [exec_jne s h, hE, Bool.not_true, State.jumpIf_false]

end Sys2Proof.Machine

namespace Sys2Proof.Machine

/-! ### Terminal run states (60_exceptions.md) -/

/-- Only a Running state has a step (R30). -/
theorem step_ne_next_of_not_running {s : State} (h : s.run ≠ .running) (t : State) : step s ≠ .next t :=
  fun hstep => h (step_next_cases hstep).1

/-- A run from a state with no step is the run of length 0: a longer one would begin with a step. -/
theorem stepsTo_of_not_running {n : Nat} {s t : State} (h : s.run ≠ .running) (hrun : stepsTo n s t) :
    n = 0 ∧ t = s := by
  cases n with
  | zero => exact ⟨rfl, Eq.symm hrun⟩
  | succ n =>
    obtain ⟨u, hstep, -⟩ := hrun
    exact absurd hstep (step_ne_next_of_not_running h u)

/-- Settles O55: Faulted is not Running, and outside Running there is neither a step nor a run of more than none. -/
theorem faultedIsTerminal : Obligations.FaultedIsTerminal := by
  intro s c p hfaulted
  have hstopped : s.run ≠ .running := by simp [hfaulted]
  exact ⟨step_ne_next_of_not_running hstopped, fun _ _ => stepsTo_of_not_running hstopped⟩

end Sys2Proof.Machine

namespace Sys2Proof.Machine

/-! ### When a run ends (70_reset_and_hazards.md section 8)

One inversion says what run state a step leaves (`step_run_cases`). With it, "infinite", "never ends" and "never halts
or faults" are each the same as "every state of the run is Running" (`runsForever_iff_running`,
`neverHaltsOrFaults_iff_running`). -/

theorem stepsTo_succ {n : Nat} {s u : State} : stepsTo (n + 1) s u ↔ ∃ t, stepsTo n s t ∧ step t = .next u := by
  rw [stepsTo_add]
  simp [stepsTo]

/-- The machine is deterministic: one state after `n` steps. -/
theorem stepsTo_unique {n : Nat} {s t u : State} (ht : stepsTo n s t) (hu : stepsTo n s u) : t = u := by
  induction n generalizing s with
  | zero => exact Eq.trans (Eq.symm ht) hu
  | succ n ih =>
    obtain ⟨t₁, hstep, ht⟩ := ht
    obtain ⟨u₁, hstep', hu⟩ := hu
    obtain rfl : t₁ = u₁ := Host.Outcome.next.inj (hstep.symm.trans hstep')
    exact ih ht hu

/-- HLT is the one instruction whose own effect writes `run` (R22). -/
theorem Effect.run_eq {s t : State} {i : Instr} (h : Effect s t i) (hi : i ≠ .hlt) : t.run = s.run := by
  cases i with
  | hlt => exact absurd rfl hi
  | ldi | prn | jeq | jne | jmp | push | pop =>
    obtain ⟨a, -, rfl⟩ := h
    simp
  | mul | add | cmp =>
    obtain ⟨a, b, -, -, rfl⟩ := h
    simp
  | call =>
    obtain ⟨a, -, -, rfl⟩ := h
    simp
  | ret =>
    obtain rfl := h
    simp

/-- The run state a step leaves: Halted by HLT, Faulted at the step's own pc, or Running still, and then not by HLT. -/
theorem step_run_cases {s t : State} (h : step s = .next t) :
    (s.fetch = .ok .hlt ∧ t.run = .halted) ∨ (∃ c, t.run = .faulted c s.pc) ∨
      (s.fetch ≠ .ok .hlt ∧ t.run = .running) := by
  obtain ⟨hrun, ⟨c, -, rfl⟩ | ⟨i, hfetch, hexec⟩⟩ := step_next_cases h
  · exact .inr (.inl ⟨c, rfl⟩)
  obtain ⟨c, -, rfl⟩ | heffect := exec_next_cases hexec
  · exact .inr (.inl ⟨c, rfl⟩)
  by_cases hi : i = .hlt
  · subst hi
    obtain rfl : t = s.halt.advance 1 := heffect
    exact .inl ⟨hfetch, rfl⟩
  · exact .inr (.inr ⟨by simpa [hfetch] using hi, (heffect.run_eq hi).trans hrun⟩)

/-- A step leaves Running exactly when it executes HLT or faults at its own pc (R118). -/
theorem step_leaves_running_iff {s t : State} (h : step s = .next t) :
    t.run ≠ .running ↔ s.fetch = .ok .hlt ∨ ∃ c, t.run = .faulted c s.pc := by
  obtain ⟨hhlt, hrun⟩ | ⟨c, hrun⟩ | ⟨hhlt, hrun⟩ := step_run_cases h
  · simp [hhlt, hrun]
  · simp [hrun]
  · simp [hhlt, hrun]

/-- A Running state always has a step (R69). -/
theorem exists_step_of_running {s : State} (h : s.run = .running) : ∃ t, step s = .next t := by
  cases hfetch : s.fetch with
  | error c => exact ⟨_, step_of_fetch_error h hfetch⟩
  | ok i =>
    obtain ⟨c, -, hexec⟩ | ⟨t, -, hexec⟩ := exec_outcome i s
    · exact ⟨_, (step_of_fetch h hfetch).trans hexec⟩
    · exact ⟨t, (step_of_fetch h hfetch).trans hexec⟩

/-- A run that stands in Running goes on by one more step. -/
theorem stepsTo_extend {n : Nat} {s t : State} (ht : stepsTo n s t) (hrun : t.run = .running) :
    ∃ u, stepsTo (n + 1) s u := by
  obtain ⟨u, hstep⟩ := exists_step_of_running hrun
  exact ⟨u, stepsTo_succ.mpr ⟨t, ht, hstep⟩⟩

/-- A run is infinite exactly when each of its states is Running. -/
theorem runsForever_iff_running {s : State} : runsForever s ↔ ∀ n t, stepsTo n s t → t.run = .running := by
  constructor
  · intro hforever n t ht
    obtain ⟨u, hu⟩ := hforever (n + 1)
    obtain ⟨t', ht', hstep⟩ := stepsTo_succ.mp hu
    exact stepsTo_unique ht' ht ▸ (step_next_cases hstep).1
  · intro hrun n
    induction n with
    | zero => exact ⟨s, rfl⟩
    | succ n ih =>
      obtain ⟨t, ht⟩ := ih
      exact stepsTo_extend ht (hrun n t ht)

/-- From a Running state, no step executes HLT or faults exactly when each state of the run is Running. -/
theorem neverHaltsOrFaults_iff_running {s : State} :
    s.run = .running ∧ neverHaltsOrFaults s ↔ ∀ n t, stepsTo n s t → t.run = .running := by
  constructor
  · rintro ⟨hs, hnever⟩ n u hu
    cases n with
    | zero => exact hu ▸ hs
    | succ n =>
      obtain ⟨t, ht, hstep⟩ := stepsTo_succ.mp hu
      obtain ⟨hhlt, hfault⟩ := hnever n t u ht hstep
      by_contra hstopped
      obtain h | ⟨c, h⟩ := (step_leaves_running_iff hstep).mp hstopped
      · exact hhlt h
      · exact hfault c t.pc h
  · intro hrun
    refine ⟨hrun 0 s rfl, fun n t u ht hstep => ?_⟩
    have hu : u.run = .running := hrun (n + 1) u (stepsTo_succ.mpr ⟨t, ht, hstep⟩)
    exact ⟨fun hhlt => (step_leaves_running_iff hstep).mpr (.inl hhlt) hu, by simp [hu]⟩

/-- Settles O56: each form of "infinite" says that every state of the run is Running. -/
theorem runIsInfiniteIffItNeverEnds : Obligations.RunIsInfiniteIffItNeverEnds := by
  intro s
  refine ⟨?untilHltOrFault, ?untilTerminal, fun _ _ => stepsTo_extend, fun _ _ _ _ => step_leaves_running_iff⟩
  case untilHltOrFault => rw [runsForever_iff_running, neverHaltsOrFaults_iff_running]
  case untilTerminal =>
    rw [runsForever_iff_running]
    constructor
    · rintro hrun ⟨t, n, ht, hstopped⟩
      exact hstopped (hrun n t ht)
    · intro hends n t ht
      by_contra hstopped
      exact hends ⟨t, n, ht, hstopped⟩

end Sys2Proof.Machine

namespace Sys2Proof

/-! ### Decoding and encoding are inverse (30_encoding.md sections 1 to 4) -/

/-- Decoding a list is decoding its reader; the rest begins after the instruction's bytes. -/
theorem decodeList_eq_ok_iff {f : Mnemonic → Byte} {bs rest : List Byte} {i : Instr} :
    decodeList f bs = .ok (i, rest) ↔ decodeWith f (bs[·]?) = .ok i ∧ rest = bs.drop i.length := by
  rw [decodeList]
  cases decodeWith f (bs[·]?) with
  | error e => simp
  | ok j =>
    constructor
    · intro h
      cases h
      exact ⟨rfl, rfl⟩
    · rintro ⟨h, rfl⟩
      cases h
      rfl

/-- Settles O3: the list reader gives the instruction's own bytes at every offset it has, which is what decoding needs,
and the rest is what is left when they are dropped. -/
theorem decodeOfEncodeIsIdentity : Obligations.DecodeOfEncodeIsIdentity := by
  intro f hf i rest
  have hlen : (encodeWith f i).length = i.length := encodeWith_length f i
  refine decodeList_eq_ok_iff.mpr ⟨decodeWith_of_bytes (fun _ _ => hf _ _) fun k hk => ?_, ?_⟩
  · exact List.getElem?_append_left (hlen ▸ hk)
  · exact (List.drop_left' hlen).symm

/-- Settles O4: a decoded list begins with the instruction's own bytes, so it is they and then what is left after
dropping them. -/
theorem encodeOfDecodeIsIdentity : Obligations.EncodeOfDecodeIsIdentity := by
  intro f bs rest i h
  obtain ⟨hdecode, rfl⟩ := decodeList_eq_ok_iff.mp h
  have hfront : bs.take i.length = encodeWith f i := by
    refine List.ext_getElem? fun k => ?_
    by_cases hk : k < i.length
    · rw [List.getElem?_take_of_lt hk]
      exact decodeWith_ok hdecode k hk
    · rw [List.getElem?_eq_none (by rw [List.length_take]; omega),
        List.getElem?_eq_none (by rw [encodeWith_length]; omega)]
  rw [← hfront, List.take_append_drop]

/-- An encoded instruction with nothing after it decodes to itself. -/
theorem decode_encode (i : Instr) : decode (encode i) = .ok (i, []) := by
  have h := decodeOfEncodeIsIdentity opc (fun _ _ h => opc_injective h) i []
  rwa [List.append_nil] at h

/-- Settles O7: each byte string is the encoding of the instruction listed beside it. -/
theorem wordsOfTheManualDecode : Obligations.WordsOfTheManualDecode :=
  ⟨decode_encode (.ldi 0#8 8#8), decode_encode (.prn 0#8), decode_encode .hlt, decode_encode (.mul 0#8 2#8),
    decode_encode (.cmp 0#8 2#8), decode_encode (.jne 3#8), decode_encode (.call 1#8), decode_encode .ret⟩

/-- Settles O1: the thirteen bytes are the map's entries, which are pairwise distinct. -/
theorem opcodeMapOfTheSpec : Obligations.OpcodeMapOfTheSpec :=
  ⟨rfl, rfl, rfl, rfl, rfl, rfl, rfl, rfl, rfl, rfl, rfl, rfl, rfl, fun _ _ h => opc_injective h⟩

end Sys2Proof

namespace Sys2Proof.Machine

/-- Settles O6: the two sides of the index check. -/
theorem registerByteIsTheIndex : Obligations.RegisterByteIsTheIndex := fun _ => ⟨regIdx_ok, regIdx_error⟩

/-! ### Canonical memories and launches (20_memory.md, 70_reset_and_hazards.md) -/

/-- A canonical memory lists exactly the cells that do not read 0x00. -/
theorem Memory.mem_iff_get {m : Memory} (h : Memory.wf m) (c : Host.Cell) :
    c ∈ m ↔ c.2 ≠ 0#8 ∧ Memory.get m c.1 = c.2 := by
  induction m with
  | nil =>
    simp only [List.not_mem_nil, Memory.get, false_iff]
    exact fun ⟨hne, h0⟩ => hne h0.symm
  | cons d m ih =>
    obtain ⟨hsorted, hcells⟩ := h
    obtain ⟨hlt, hsorted⟩ := List.pairwise_cons.mp hsorted
    obtain ⟨⟨-, hd⟩, hcells⟩ := List.forall_mem_cons.mp hcells
    have ih := ih ⟨hsorted, hcells⟩
    rw [List.mem_cons, Memory.get]
    split
    case isTrue heq =>
      have hnot : c ∉ m := fun hc => (hlt c hc).ne heq
      refine ⟨?_, fun ⟨_, hval⟩ => .inl (Prod.ext heq.symm hval.symm)⟩
      rintro (rfl | hc)
      · exact ⟨hd, rfl⟩
      · exact absurd hc hnot
    case isFalse hne =>
      have hcd : c ≠ d := fun e => hne (e ▸ rfl)
      rw [← ih, or_iff_right hcd]

/-- Settles O10: memories that read alike list the same cells, and a strictly rising list is determined by what it
lists. -/
theorem canonicalMemoriesThatReadAlikeAreEqual : Obligations.CanonicalMemoriesThatReadAlikeAreEqual := by
  intro m m' h h' hget
  have : Std.Irrefl fun c d : Host.Cell => c.1 < d.1 := ⟨fun c => lt_irrefl c.1⟩
  have : Std.Antisymm fun c d : Host.Cell => c.1 < d.1 := ⟨fun _ _ hlt hgt => absurd hgt hlt.asymm⟩
  refine h.1.eq_of_mem_iff h'.1 fun c => ?_
  rw [Memory.mem_iff_get h, Memory.mem_iff_get h', hget]

/-- Settles O12: the fields of the reset state, whose memory lists no cell. -/
theorem resetRest : Obligations.ResetRest := ⟨rfl, rfl, rfl, rfl, rfl, rfl, fun _ => rfl⟩

/-- Settles O14: the load of a longer image raises at the first address past memory. -/
theorem launchRefusesLongImages : Obligations.LaunchRefusesLongImages := by
  intro img himg
  have hload : State.reset.loadAt 0 img = .error (.addressOutOfBounds 256) :=
    State.loadAt_error img State.reset 0 (Nat.zero_le _) (by omega)
  rw [State.launch, hload]

/-- A launched state is the reset state with a canonical memory (R111). -/
theorem State.launch_ok {img : List Byte} {s : State} (h : State.launch img = .next s) :
    ∃ m, Memory.wf m ∧ s = { State.reset with mem := m } := by
  by_cases himg : img.length ≤ 256
  · obtain ⟨m, hload, hwf, -⟩ := State.loadAt_ok img State.reset 0 (by omega)
    rw [State.launch, hload] at h
    exact ⟨m, hwf Memory.reset_wf, (Host.Outcome.next.inj h).symm⟩
  · rw [launchRefusesLongImages img (by omega)] at h
    cases h

/-! ### Which instruction a step runs, and which fault it raises (30_encoding.md, 60_exceptions.md) -/

/-- Settles O16: bytes that stand whole at pc are fetched. -/
theorem stepRunsTheInstructionAtPc : Obligations.StepRunsTheInstructionAtPc := by
  intro s i hrun hfits hbytes
  have hlen : (encode i).length = i.length := encodeWith_length opc i
  refine step_of_fetch hrun (State.fetch_of_bytes (hlen ▸ hfits) fun k hk => ?_)
  have hk' : k < (encode i).length := hlen ▸ hk
  rw [List.getElem?_eq_getElem hk', hbytes k hk']

/-- Settles O15: the list of the bytes at pc and the fetch read the same at the offsets an instruction can have. -/
theorem stepRunsTheDecodedInstruction : Obligations.StepRunsTheDecodedInstruction := by
  intro s i rest hrun hdecode
  obtain ⟨hlist, -⟩ := decodeList_eq_ok_iff.mp hdecode
  have hcells : decodeWith opc s.fetchByte = .ok i := decodeWith_of_bytes opc_injective fun k hk => by
    rw [← s.codeBytes_get (hk.trans_le i.length_le)]
    exact decodeWith_ok hlist k hk
  exact step_of_fetch hrun (by rw [State.fetch, hcells])

/-- Settles O17: a step starts in Running and there always is one; the two terminal run states stop by name. -/
theorem stepExistsExactlyInRunning : Obligations.StepExistsExactlyInRunning := fun s =>
  ⟨⟨fun ⟨_, hstep⟩ => (step_next_cases hstep).1, exists_step_of_running⟩,
    fun hrun => by simp only [step, hrun], fun c p hrun => by simp only [step, hrun]⟩

/-- Settles O18: both outcomes of exec, a raise and the instruction's effect, are next states. -/
theorem noInstructionStopsTheMachine : Obligations.NoInstructionStopsTheMachine := by
  intro i s
  obtain ⟨c, -, hexec⟩ | ⟨t, -, hexec⟩ := exec_outcome i s
  · exact ⟨s.raise c, hexec⟩
  · exact ⟨t, hexec⟩

theorem not_regByteOk_iff {b : Byte} : (!regByteOk b) = true ↔ 8 ≤ b.toNat := by
  simp [regByteOk]

/-- The first bad byte of a single register operand. -/
theorem find?_bad_singleton {r b : Byte} (h : [r].find? (!regByteOk ·) = some b) : b = r ∧ 8 ≤ r.toNat := by
  have hbad := List.find?_some (p := (!regByteOk ·)) h
  obtain rfl : b = r := List.mem_singleton.mp (List.mem_of_find?_eq_some h)
  exact ⟨rfl, not_regByteOk_iff.mp hbad⟩

/-- The first bad byte of two register operands: the first one, if it is bad (R100). -/
theorem find?_bad_pair {x y b : Byte} (h : [x, y].find? (!regByteOk ·) = some b) :
    b = (if 8 ≤ x.toNat then x else y) ∧ (8 ≤ x.toNat ∨ 8 ≤ y.toNat) := by
  by_cases hx : 8 ≤ x.toNat
  · rw [List.find?_cons_of_pos (p := (!regByteOk ·)) (not_regByteOk_iff.mpr hx)] at h
    exact ⟨by rw [if_pos hx]; exact (Option.some.inj h).symm, .inl hx⟩
  · rw [List.find?_cons_of_neg (p := (!regByteOk ·)) (not_regByteOk_iff.not.mpr hx)] at h
    obtain ⟨rfl, hy⟩ := find?_bad_singleton h
    exact ⟨by rw [if_neg hx], .inr hy⟩

/-- Settles O20: the index check stands at the head of every meaning that has register operands, first operand first. -/
theorem badRegisterOperandFaults : Obligations.BadRegisterOperandFaults := by
  intro i s b h
  cases i with
  | hlt | ret => cases h
  | ldi | prn | jeq | jne | jmp | push | pop | call =>
    obtain ⟨rfl, hbad⟩ := find?_bad_singleton h
    exact State.withReg_error hbad
  | mul | add | cmp =>
    obtain ⟨rfl, hbad⟩ := find?_bad_pair h
    exact State.withRegs_error hbad

/-- Settles O19: the first four clauses are the ways a fetch fails, the fifth is the index check, the last CALL's check
of its return address. -/
theorem faultPriority : Obligations.FaultPriority := by
  intro s hrun
  refine ⟨fun hp => ?pcPast, fun hp hop => ?noOpcode, fun m hp hop hcount => ?operandPast,
    fun m hp hop hcount => ?secondOperandPast, fun i b hfetch hbad => ?badRegister, fun r hfetch hr hp => ?callTop⟩
  case pcPast => exact step_of_fetch_error hrun (State.fetch_of_pc_past_memory hp)
  case noOpcode => exact step_of_fetch_error hrun (State.fetch_of_illegal hp hop)
  case operandPast | secondOperandPast =>
    exact step_of_fetch_error hrun (State.fetch_of_operands_past_memory (by omega) (hp ▸ hop) (by omega))
  case badRegister => exact (step_of_fetch hrun hfetch).trans (badRegisterOperandFaults i s b hbad)
  case callTop =>
    rw [step_of_fetch hrun hfetch, exec_call_top s hr (by omega), hp]
    rfl

end Sys2Proof.Machine

namespace Sys2Proof.Machine

/-! ### The frames of the single writes -/

theorem State.sameRegsBut_setReg (s : State) (i : Fin 8) (v : Byte) : s.sameRegsBut (s.setReg i v) [i] :=
  fun _ hj => State.setReg_reg_ne s v (List.ne_of_not_mem_cons hj)

theorem State.sameRegsBut_decSp (s : State) : s.sameRegsBut s.decSp [7] := s.sameRegsBut_setReg _ _

theorem State.sameRegsBut_incSp (s : State) : s.sameRegsBut s.incSp [7] := s.sameRegsBut_setReg _ _

/-- The frame of two writes after one another. -/
theorem State.sameRegsBut.trans {s t u : State} {ds es : List (Fin 8)} (hst : s.sameRegsBut t ds)
    (htu : t.sameRegsBut u es) : s.sameRegsBut u (ds ++ es) := fun j hj => by
  rw [List.mem_append, not_or] at hj
  rw [htu j hj.2, hst j hj.1]

/-! ### HLT, PRN and the ALU instructions complete -/

/-- Settles O21: HLT writes `run` and pc. -/
theorem hltCompletes : Obligations.HltCompletes := fun s =>
  ⟨s.halt.advance 1, exec_hlt s, rfl, rfl, fun _ => rfl, rfl, rfl, fun _ => rfl⟩

/-- Settles O24: PRN writes OUT and pc. -/
theorem prnCompletes : Obligations.PrnCompletes := fun s r h =>
  ⟨(s.emit (s.reg ⟨r.toNat, h⟩)).advance 2, exec_prn s h, rfl, rfl, fun _ => rfl, rfl, rfl, fun _ => rfl⟩

/-- Settles O25: the product of the ALU, then the advance. -/
theorem mulCompletes : Obligations.MulCompletes := fun s a b ha hb =>
  ⟨(s.alu .mul ⟨a.toNat, ha⟩ ⟨b.toNat, hb⟩).advance 3, exec_mul s ha hb, s.alu_mul_reg_toNat _ _, rfl,
    s.sameRegsBut_alu .mul _ _, rfl, rfl, rfl, fun _ => rfl⟩

/-- Settles O26: the sum of the ALU, then the advance. -/
theorem addCompletes : Obligations.AddCompletes := fun s a b ha hb =>
  ⟨(s.alu .add ⟨a.toNat, ha⟩ ⟨b.toNat, hb⟩).advance 3, exec_add s ha hb, s.alu_add_reg_toNat _ _, rfl,
    s.sameRegsBut_alu .add _ _, rfl, rfl, rfl, fun _ => rfl⟩

/-- Settles O27: each flag of the ALU's comparison is the decision of its own order, then the advance. -/
theorem cmpCompletes : Obligations.CmpCompletes := fun s a b ha hb =>
  ⟨(s.alu .cmp ⟨a.toNat, ha⟩ ⟨b.toNat, hb⟩).advance 3, exec_cmp s ha hb, decide_eq_true_iff, decide_eq_true_iff,
    decide_eq_true_iff, rfl, fun _ => rfl, rfl, rfl, fun _ => rfl⟩

/-! ### The stack instructions complete (43_stack_and_calls.md) -/

/-- Settles O35: a stack address is a byte; SP's arithmetic is that of a byte. -/
theorem stackAccessesNeverFault : Obligations.StackAccessesNeverFault := fun s v =>
  ⟨⟨_, s.pushByte_eq v⟩, ⟨_, s.popLoad_eq⟩, fun hsp => by rw [State.decSp_sp, hsp]; rfl,
    fun hsp => by rw [State.incSp_sp, hsp]; rfl⟩

/-- Settles O30: PUSH decrements SP and writes the cell there. -/
theorem pushCompletes : Obligations.PushCompletes := fun s _ h =>
  ⟨_, exec_push s h, s.decSp_sp_toNat, State.setByte_byteAt_self _ _ _, rfl, rfl, s.sameRegsBut_decSp, rfl, rfl, rfl,
    s.decSp.sameMemBut_setByte _ _⟩

/-- PUSH leaves the register, as read after the decrement, in the cell it pushes to (R87, D13). -/
theorem exec_push_byteAt {s t : State} {r : Byte} (h : r.toNat < 8) (hexec : exec (.push r) s = .next t) :
    t.byteAt s.decSp.sp.toNat = s.decSp.reg ⟨r.toNat, h⟩ := by
  rw [exec_push s h] at hexec
  cases hexec
  exact State.setByte_byteAt_self _ _ _

/-- Settles O31: POP writes its register and then increments what SP holds by then. -/
theorem popCompletes : Obligations.PopCompletes := by
  intro s r h
  refine ⟨_, exec_pop s h, fun hr => ⟨?register, ?sp⟩, fun hr => ?r7, rfl,
    (s.sameRegsBut_setReg _ _).trans (State.sameRegsBut_incSp _), rfl, rfl, rfl, fun _ => rfl⟩
  case register =>
    have hne : (⟨r.toNat, h⟩ : Fin 8) ∉ [7] := by simpa [Fin.ext_iff] using hr
    exact (State.sameRegsBut_incSp _ _ hne).trans (State.setReg_reg_self _ _ _)
  case sp =>
    have hne : Config.spIndex ≠ ⟨r.toNat, h⟩ := fun e => hr (congrArg Fin.val e).symm
    rw [State.advance_sp, State.incSp_sp_toNat, State.setReg_sp, if_neg hne]
  case r7 =>
    have heq : Config.spIndex = ⟨r.toNat, h⟩ := Fin.ext hr.symm
    rw [State.advance_sp, State.incSp_sp_toNat, State.setReg_sp, if_pos heq]

/-- A return address that is an address is a byte of the same number. -/
theorem returnAddress_toNat {s : State} (hp : s.pc.toNat ≤ 253) :
    (BitVec.ofNat 8 (s.pc.toNat + 2)).toNat = s.pc.toNat + 2 := by
  rw [BitVec.toNat_ofNat, Nat.mod_eq_of_lt (by omega)]

/-- CALL leaves the return address as a byte in the cell it pushes to (R89). -/
theorem exec_call_byteAt {s t : State} {r : Byte} (h : r.toNat < 8) (hp : s.pc.toNat ≤ 253)
    (hexec : exec (.call r) s = .next t) : t.byteAt s.decSp.sp.toNat = BitVec.ofNat 8 (s.pc.toNat + 2) := by
  rw [exec_call s h (by omega)] at hexec
  cases hexec
  exact State.setByte_byteAt_self _ _ _

/-- Settles O32: CALL decrements SP, writes the return address to the cell there and transfers. -/
theorem callCompletes : Obligations.CallCompletes := by
  intro s r h hp
  refine ⟨_, exec_call s h (by omega), s.decSp_sp_toNat, rfl, ?pushed, jumpTarget_toNat _, s.sameRegsBut_decSp, rfl,
    rfl, rfl, s.decSp.sameMemBut_setByte _ _⟩
  case pushed => rw [State.jumpTo_byteAt, State.setByte_byteAt_self, returnAddress_toNat hp]

/-- Settles O33: the return address is checked before anything is written. -/
theorem callWithoutReturnAddressFaults : Obligations.CallWithoutReturnAddressFaults := fun s _ h hp =>
  exec_call_top s h hp

/-- Settles O34: RET increments SP and transfers to the byte that stood at it. -/
theorem retCompletes : Obligations.RetCompletes := fun s =>
  ⟨_, exec_ret s, jumpTarget_toNat _, s.incSp_sp_toNat, s.sameRegsBut_incSp, rfl, rfl, rfl, fun _ => rfl⟩

/-! ### Short sequences (95_test_vectors.md) -/

theorem execAll_cons {i : Instr} {is : List Instr} {s t : State} (h : exec i s = .next t) :
    execAll (i :: is) s = execAll is t := by
  rw [execAll, h]

/-- Settles O36: POP finds the byte PUSH left at the SP it left. R7 gets the decremented SP back and is incremented; any
other register gets its own value back, and SP is incremented. -/
theorem pushThenPopRestores : Obligations.PushThenPopRestores := by
  intro s r h
  obtain ⟨u, hpush, husp, hcell, hsp, hupc, huregs, huflags, hurun, huout, humem⟩ := pushCompletes s r h
  obtain ⟨t, hpop, hreg, hreg7, htpc, htregs, htflags, htrun, htout, htmem⟩ := popCompletes u r h
  have hpushed : u.byteAt u.sp.toNat = u.reg ⟨r.toNat, h⟩ := hsp ▸ hcell
  refine ⟨t, by rw [execAll_cons hpush, execAll_cons hpop]; rfl, fun j => ?registers,
    by rw [htmem, exec_push_byteAt h hpush], fun a ha => by rw [htmem, humem a ha], ?pc, htflags.trans huflags,
    htrun.trans hurun, htout.trans huout⟩
  case pc =>
    rw [htpc, hupc, BitVec.add_assoc]
    rfl
  case registers =>
    by_cases hj7 : j = 7
    · subst hj7
      refine BitVec.eq_of_toNat_eq (?_ : t.sp.toNat = s.sp.toNat)
      have hlt := s.sp.isLt
      by_cases hr : r.toNat = 7
      · have h7 : u.reg ⟨r.toNat, h⟩ = u.sp := congrArg u.reg (Fin.ext hr)
        have htsp := hreg7 hr
        rw [hpushed, h7] at htsp
        omega
      · obtain ⟨-, htsp⟩ := hreg hr
        omega
    · have huj : u.reg j = s.reg j := huregs j (by simpa using hj7)
      by_cases hjr : j = ⟨r.toNat, h⟩
      · subst hjr
        obtain ⟨htr, -⟩ := hreg fun hr => hj7 (Fin.ext hr)
        rw [htr, hpushed, huj]
      · rw [htregs j (by simp [hjr, hj7]), huj]

/-- The stack holds the bytes of the list: the first at SP, the others above it, modulo 256 (R86). -/
def State.stackHolds (s : State) (vs : List Byte) : Prop :=
  ∀ k (h : k < vs.length), s.byteAt (s.sp + BitVec.ofNat 8 k).toNat = vs[k]

/-- PUSH of a register below 7 puts its value on top of what the stack holds, while that leaves a cell free. -/
theorem exec_push_stackHolds {s : State} {r : Byte} {vs : List Byte} (h : r.toNat < 7) (hvs : s.stackHolds vs)
    (hfree : vs.length < 256) :
    ∃ t, exec (.push r) s = .next t ∧ t.stackHolds (s.reg ⟨r.toNat, h.trans (by decide)⟩ :: vs) ∧
      t.sp = s.sp - 1#8 ∧ s.sameRegsBut t [7] ∧ t.run = s.run := by
  obtain ⟨t, hexec, -, hcell, hsp, -, hregs, -, hrun, -, hmem⟩ := pushCompletes s r (h.trans (by decide))
  refine ⟨t, hexec, fun k hk => ?_, hsp.trans s.decSp_sp, hregs, hrun⟩
  have hsp' : t.sp = s.sp - 1#8 := hsp.trans s.decSp_sp
  cases k with
  | zero =>
    have hne : (⟨r.toNat, h.trans (by decide)⟩ : Fin 8) ∉ [7] := by simp [Fin.ext_iff]; omega
    rw [BitVec.add_zero, hsp, hcell, hregs _ hne]
    rfl
  | succ k =>
    have hk : k < vs.length := Nat.lt_of_succ_lt_succ hk
    have haddr : t.sp + BitVec.ofNat 8 (k + 1) = s.sp + BitVec.ofNat 8 k := by
      rw [hsp']
      bv_omega
    have hother : (s.sp + BitVec.ofNat 8 k).toNat ≠ s.decSp.sp.toNat := by
      rw [State.decSp_sp]
      bv_omega
    rw [haddr, hmem _ hother, hvs k hk]
    rfl

/-- POP of a register below 7 takes the top of what the stack holds. -/
theorem exec_pop_stackHolds {s : State} {r v : Byte} {vs : List Byte} (h : r.toNat < 7) (hvs : s.stackHolds (v :: vs)) :
    ∃ t, exec (.pop r) s = .next t ∧ t.stackHolds vs ∧ t.reg ⟨r.toNat, h.trans (by decide)⟩ = v ∧
      t.sp = s.sp + 1#8 ∧ s.sameRegsBut t [⟨r.toNat, h.trans (by decide)⟩, 7] ∧ t.run = s.run := by
  obtain ⟨t, hexec, hreg, -, -, hregs, -, hrun, -, hmem⟩ := popCompletes s r (h.trans (by decide))
  obtain ⟨htr, htsp⟩ := hreg (by omega)
  have hsp : t.sp = s.sp + 1#8 := BitVec.eq_of_toNat_eq (by rw [htsp, BitVec.toNat_add]; rfl)
  refine ⟨t, hexec, fun k hk => ?_, ?_, hsp, hregs, hrun⟩
  · have haddr : t.sp + BitVec.ofNat 8 k = s.sp + BitVec.ofNat 8 (k + 1) := by
      rw [hsp]
      bv_omega
    rw [haddr, hmem]
    exact hvs (k + 1) (Nat.succ_lt_succ hk)
  · rw [htr]
    simpa using hvs 0 (Nat.succ_pos _)

/-- Settles O37: three bytes are put on the stack and taken off it, each POP taking the top. -/
theorem pushThreePopThreeIsLastInFirstOut : Obligations.PushThreePopThreeIsLastInFirstOut := by
  intro s
  have hempty : s.stackHolds [] := fun k hk => absurd hk (Nat.not_lt_zero k)
  obtain ⟨a, ha, hastack, hasp, haregs, harun⟩ := exec_push_stackHolds (r := 0#8) (by decide) hempty (by simp)
  obtain ⟨b, hb, hbstack, hbsp, hbregs, hbrun⟩ := exec_push_stackHolds (r := 1#8) (by decide) hastack (by simp)
  obtain ⟨c, hc, hcstack, hcsp, hcregs, hcrun⟩ := exec_push_stackHolds (r := 2#8) (by decide) hbstack (by simp)
  obtain ⟨d, hd, hdstack, hd3, hdsp, hdregs, hdrun⟩ := exec_pop_stackHolds (r := 3#8) (by decide) hcstack
  obtain ⟨e, he, hestack, he4, hesp, heregs, herun⟩ := exec_pop_stackHolds (r := 4#8) (by decide) hdstack
  obtain ⟨t, ht, -, ht5, htsp, htregs, htrun⟩ := exec_pop_stackHolds (r := 5#8) (by decide) hestack
  refine ⟨t, ?execAll, ?r3, ?r4, ?r5, fun j hj => ?others, ?run⟩
  case execAll =>
    rw [execAll_cons ha, execAll_cons hb, execAll_cons hc, execAll_cons hd, execAll_cons he, execAll_cons ht]
    rfl
  case r3 =>
    calc t.reg 3 = d.reg 3 := (heregs.trans htregs) 3 (by decide)
      _ = b.reg 2 := hd3
      _ = s.reg 2 := (haregs.trans hbregs) 2 (by decide)
  case r4 =>
    calc t.reg 4 = e.reg 4 := htregs 4 (by decide)
      _ = a.reg 1 := he4
      _ = s.reg 1 := haregs 1 (by decide)
  case r5 => exact ht5
  case others =>
    by_cases hj7 : j = 7
    · subst hj7
      show t.sp = s.sp
      rw [htsp, hesp, hdsp, hcsp, hbsp, hasp]
      bv_omega
    · have hpushes := (haregs.trans hbregs).trans hcregs
      have hpops := (hdregs.trans heregs).trans htregs
      have hj' : j ≠ 3 ∧ j ≠ 4 ∧ j ≠ 5 := by simpa using hj
      exact (hpushes.trans hpops) j (by simp [hj7, hj'])
  case run => rw [htrun, herun, hdrun, hcrun, hbrun, harun]

/-- Settles O38: after the CALL pc stands at the RET, whose byte the push left alone, and the byte at SP is the return
address. -/
theorem callThenRetReturns : Obligations.CallThenRetReturns := by
  intro s r hrun hp hop hr hr7 hret hother
  have hr8 : (s.byteAt (s.pc.toNat + 1)).toNat < 8 := hr ▸ r.isLt
  obtain rfl : ⟨_, hr8⟩ = r := Fin.ext hr
  have hfits : s.pc.toNat + 1 < 256 := by omega
  have hcall := step_of_fetch hrun (State.fetch_of_opcode (m := .call) hop hfits)
  obtain ⟨t, htexec, htspn, htsp, htcell, htpc, htregs, htflags, htrun, htout, htmem⟩ := callCompletes s _ hr8 hp
  rw [htregs _ (by simpa using hr7)] at htpc
  have htop : t.byteAt t.pc.toNat = opc .ret := by rw [htpc, htmem _ hother, hret]
  have hrets := step_of_fetch (htrun.trans hrun)
    (State.fetch_of_opcode (m := .ret) htop (htpc ▸ (s.reg ⟨_, hr8⟩).isLt))
  obtain ⟨u, huexec, hupc, husp, huregs, huflags, hurun, huout, humem⟩ := retCompletes t
  refine ⟨t, u, hcall.trans htexec, hrets.trans huexec, htpc, htcell, ?returns, fun j => ?registers,
    fun a ha => by rw [humem, htmem a ha], huflags.trans htflags, hurun.trans (htrun.trans hrun), huout.trans htout⟩
  case returns => rw [hupc, htsp, htcell]
  case registers =>
    by_cases hj7 : j = 7
    · subst hj7
      refine BitVec.eq_of_toNat_eq (?_ : u.sp.toNat = s.sp.toNat)
      have hlt := s.sp.isLt
      omega
    · rw [huregs j (by simpa using hj7), htregs j (by simpa using hj7)]

/-- Settles O39: the E that CMP writes is what JEQ branches on, and neither writes a register or a cell. -/
theorem cmpThenJeqFollowsEquality : Obligations.CmpThenJeqFollowsEquality := by
  intro s a b r ha hb hr
  obtain ⟨u, hcmp, hE, -, -, hupc, huregs, -, -, humem⟩ := cmpCompletes s a b ha hb
  refine ⟨_, by rw [execAll_cons hcmp, execAll_cons (exec_jeq u hr), execAll], fun heq => ?taken, fun hne => ?notTaken,
    fun j => ?registers, fun x => ?memory⟩
  case taken => rw [State.jumpIf_pc, if_pos (hE.mpr (congrArg BitVec.toNat heq)), jumpTarget_toNat, huregs]
  case notTaken =>
    rw [State.jumpIf_pc, if_neg fun hEq => hne (BitVec.eq_of_toNat_eq (hE.mp hEq)), hupc, BitVec.add_assoc]
    rfl
  case registers => rw [State.jumpIf_reg, huregs]
  case memory => rw [State.jumpIf_byteAt, humem]

/-- A fetch reads the cell at pc, whichever instruction wrote it (fetch coherence, 20_memory.md section 4). -/
theorem fetchByte_zero_of_mem_eq {t u : State} {x v : Byte} (hmem : u.mem = t.mem) (hpc : u.pc.toNat = x.toNat)
    (hcell : t.byteAt x.toNat = v) : u.fetchByte 0 = some v := by
  rw [State.fetchByte_of_lt (hpc ▸ x.isLt), Nat.add_zero, hpc, State.byteAt, hmem]
  exact congrArg some hcell

/-- Settles O40: a fetch reads the cell PUSH or CALL wrote; CALL R7 transfers to the SP it has just written at. -/
theorem storedByteIsFetched : Obligations.StoredByteIsFetched := by
  refine ⟨fun s t u r h hexec hmem hpc => ?push, fun s t u r h hp hexec hmem hpc => ?call, fun s t hp hexec => ?callR7⟩
  case push => exact fetchByte_zero_of_mem_eq hmem hpc (exec_push_byteAt h hexec)
  case call => exact fetchByte_zero_of_mem_eq hmem hpc (exec_call_byteAt h hp hexec)
  case callR7 =>
    refine fetchByte_zero_of_mem_eq (x := s.decSp.sp) rfl ?_ (exec_call_byteAt (by decide) hp hexec)
    rw [exec_call s (by decide) (by omega)] at hexec
    cases hexec
    exact jumpTarget_toNat _

end Sys2Proof.Machine

namespace Sys2Proof.Machine

/-! ## Rules of the whole machine

Each is read off the inversions of the step (`step_next_cases`, `exec_next_cases`): what an instruction's own effect
writes, field by field, and which faults a step can raise. -/

/-! ### What an instruction's own effect writes -/

/-- PRN is the one instruction whose effect writes OUT (R76). -/
theorem Effect.out_eq {s t : State} {i : Instr} (h : Effect s t i) (hi : ∀ r, i ≠ .prn r) : t.out = s.out := by
  cases i with
  | prn r => exact absurd rfl (hi r)
  | hlt | ret => obtain rfl := h; rfl
  | ldi | jmp | push | pop => obtain ⟨a, -, rfl⟩ := h; rfl
  | jeq | jne => obtain ⟨a, -, rfl⟩ := h; exact State.jumpIf_out _ _ _
  | mul | add | cmp => obtain ⟨a, b, -, -, rfl⟩ := h; rfl
  | call => obtain ⟨a, -, -, rfl⟩ := h; rfl

/-- PUSH and CALL are the instructions whose effect writes memory, one cell below SP (R87, R89). -/
theorem Effect.mem_cases {s t : State} {i : Instr} (h : Effect s t i) :
    t.mem = s.mem ∨ ((∃ r, i = .push r ∨ i = .call r) ∧ ∃ v, t.mem = Memory.set s.mem s.decSp.sp.toNat v) := by
  cases i with
  | hlt | ret => obtain rfl := h; exact .inl rfl
  | ldi | prn | jmp | pop => obtain ⟨a, -, rfl⟩ := h; exact .inl rfl
  | jeq | jne => obtain ⟨a, -, rfl⟩ := h; exact .inl (State.jumpIf_mem _ _ _)
  | mul | add | cmp => obtain ⟨a, b, -, -, rfl⟩ := h; exact .inl rfl
  | push r => obtain ⟨a, -, rfl⟩ := h; exact .inr ⟨⟨r, .inl rfl⟩, _, rfl⟩
  | call r => obtain ⟨a, -, -, rfl⟩ := h; exact .inr ⟨⟨r, .inr rfl⟩, _, rfl⟩

/-- An effect writes the registers of its instruction's entry in the writes column only (R22). -/
theorem Effect.reg_eq {s t : State} {i : Instr} {j : Fin 8} (h : Effect s t i) (hj : ¬ mayWrite i j) :
    t.reg j = s.reg j := by
  cases i with
  | hlt => obtain rfl := h; rfl
  | prn | jmp => obtain ⟨a, -, rfl⟩ := h; rfl
  | cmp => obtain ⟨a, b, -, -, rfl⟩ := h; rfl
  | jeq | jne => obtain ⟨a, -, rfl⟩ := h; exact State.jumpIf_reg _ _ _ _
  | ldi =>
    obtain ⟨a, ha, rfl⟩ := h
    exact State.setReg_reg_ne _ _ fun e => hj (e ▸ ha)
  | mul | add =>
    obtain ⟨a, b, ha, -, rfl⟩ := h
    exact State.alu_reg_ne _ _ fun e => hj (e ▸ ha)
  | push => obtain ⟨a, -, rfl⟩ := h; exact State.setReg_reg_ne _ _ hj
  | call => obtain ⟨a, -, -, rfl⟩ := h; exact State.setReg_reg_ne _ _ hj
  | ret => obtain rfl := h; exact State.setReg_reg_ne _ _ hj
  | pop =>
    obtain ⟨a, ha, rfl⟩ := h
    obtain ⟨hja, hj7⟩ := not_or.mp hj
    calc ((s.setReg a _).incSp.advance 2).reg j
      _ = (s.setReg a _).reg j := State.setReg_reg_ne _ _ hj7
      _ = s.reg j := State.setReg_reg_ne _ _ fun e => hja (e ▸ ha)

/-- The effect of an instruction that is no transfer advances pc by its length (R26). -/
theorem Effect.pc_eq {s t : State} {i : Instr} (h : Effect s t i) (hi : isTransfer i = false) :
    t.pc = s.pc + BitVec.ofNat 9 i.length := by
  cases i with
  | jeq | jne | jmp | call | ret => cases hi
  | hlt => obtain rfl := h; rfl
  | ldi | prn | push | pop => obtain ⟨a, -, rfl⟩ := h; rfl
  | mul | add | cmp => obtain ⟨a, b, -, -, rfl⟩ := h; exact congrArg (· + _) (State.alu_pc _ _ _ _)

/-- A transfer leaves pc at a byte's value or, a jump not taken, past its own two bytes (R82). -/
theorem Effect.pc_cases_of_isTransfer {s t : State} {i : Instr} (h : Effect s t i) (hi : isTransfer i = true) :
    (∃ v : Byte, t.pc = v.setWidth 9) ∨ t.pc = s.pc + BitVec.ofNat 9 i.length := by
  cases i with
  | hlt | ldi | prn | mul | add | cmp | push | pop => cases hi
  | jmp => obtain ⟨a, -, rfl⟩ := h; exact .inl ⟨_, rfl⟩
  | call => obtain ⟨a, -, -, rfl⟩ := h; exact .inl ⟨_, rfl⟩
  | ret => obtain rfl := h; exact .inl ⟨_, rfl⟩
  | jeq | jne =>
    obtain ⟨a, -, rfl⟩ := h
    rw [State.jumpIf_pc]
    split
    · exact .inl ⟨_, rfl⟩
    · exact .inr rfl

/-! ### What a step writes -/

/-- A step leaves the fields but `run` alone, or it completes a fetched instruction with that instruction's effect. -/
theorem step_effect_cases {s t : State} (h : step s = .next t) :
    (∃ c, t = s.raise c) ∨ ∃ i, s.fetch = .ok i ∧ Effect s t i := by
  obtain ⟨-, ⟨c, -, rfl⟩ | ⟨i, hfetch, hexec⟩⟩ := step_next_cases h
  · exact .inl ⟨c, rfl⟩
  obtain ⟨c, -, rfl⟩ | heffect := exec_next_cases hexec
  · exact .inl ⟨c, rfl⟩
  · exact .inr ⟨i, hfetch, heffect⟩

/-- Settles O45: of the effects only PRN's writes OUT. -/
theorem outputGrowsOnlyByPrn : Obligations.OutputGrowsOnlyByPrn := by
  intro s t h
  obtain ⟨c, rfl⟩ | ⟨i, hfetch, heffect⟩ := step_effect_cases h
  · exact .inl (State.raise_out s c)
  by_cases hi : ∃ r, i = .prn r
  · obtain ⟨r, rfl⟩ := hi
    obtain ⟨a, ha, rfl⟩ := heffect
    exact .inr ⟨r, a, hfetch, ha.symm, rfl⟩
  · exact .inl (heffect.out_eq (not_exists.mp hi))

/-- Settles O46: the suffixes that the steps append follow one another. -/
theorem outputIsAppendOnlyAlongRuns : Obligations.OutputIsAppendOnlyAlongRuns := by
  intro n
  induction n with
  | zero => exact fun s t h => ⟨[], by rw [List.append_nil, h], le_rfl⟩
  | succ n ih =>
    rintro s t ⟨u, hstep, hrest⟩
    obtain ⟨w, hw, hlen⟩ := ih u t hrest
    obtain hu | ⟨-, a, -, -, hu⟩ := outputGrowsOnlyByPrn s u hstep
    · exact ⟨w, by rw [hw, hu], Nat.le_succ_of_le hlen⟩
    · exact ⟨s.reg a :: w, by rw [hw, hu, List.append_assoc, List.singleton_append], Nat.succ_le_succ hlen⟩

/-- Settles O44: only HLT leaves Halted, and exec of HLT completes with it. -/
theorem haltedOnlyByHlt : Obligations.HaltedOnlyByHlt := by
  intro s t h
  constructor
  · intro ht
    obtain ⟨hfetch, -⟩ | ⟨c, hrun⟩ | ⟨-, hrun⟩ := step_run_cases h
    · exact hfetch
    · simp [ht] at hrun
    · simp [ht] at hrun
  · intro hfetch
    obtain ⟨hrun, -⟩ := step_next_cases h
    rw [step_of_fetch hrun hfetch, exec_hlt] at h
    cases h
    rfl

/-- Settles O47: of the effects only PUSH's and CALL's write memory, at the cell below SP. -/
theorem memoryWrittenOnlyByPushAndCall : Obligations.MemoryWrittenOnlyByPushAndCall := by
  intro s t a h hne
  obtain ⟨c, rfl⟩ | ⟨i, hfetch, heffect⟩ := step_effect_cases h
  · exact absurd (State.raise_byteAt s c a) hne
  obtain hmem | ⟨⟨r, hi⟩, v, hmem⟩ := heffect.mem_cases
  · exact absurd (congrArg (Memory.get · a) hmem) hne
  have hwriter : s.fetch = .ok (.push r) ∨ s.fetch = .ok (.call r) := by
    obtain rfl | rfl := hi
    · exact .inl hfetch
    · exact .inr hfetch
  refine ⟨?_, r, hwriter⟩
  by_contra ha
  rw [State.byteAt, hmem, Memory.get_set, if_neg ha] at hne
  exact hne rfl

/-- Settles O48: a raise writes no register, an effect those of the writes column. -/
theorem registersWrittenAsTabled : Obligations.RegistersWrittenAsTabled := by
  intro s t j h hne
  obtain ⟨c, rfl⟩ | ⟨i, hfetch, heffect⟩ := step_effect_cases h
  · exact absurd (State.raise_reg s c j) hne
  · exact ⟨i, hfetch, by_contra fun hj => hne (heffect.reg_eq hj)⟩

/-! ### Which faults a step raises -/

/-- A completed instruction latches no fault: its effect leaves `run` or halts. -/
theorem Effect.run_ne_faulted {s t : State} {i : Instr} (h : Effect s t i) (hrun : s.run = .running) (c : Cause)
    (p : PcWord) : t.run ≠ .faulted c p := by
  by_cases hi : i = .hlt
  · subst hi
    obtain rfl : t = s.halt.advance 1 := h
    simp
  · simp [h.run_eq hi, hrun]

/-- A step that latches a fault is the raise of its cause at its own pc, out of its fetch or out of the instruction
fetched. -/
theorem step_faulted_cases {s t : State} {c : Cause} {p : PcWord} (h : step s = .next t)
    (ht : t.run = .faulted c p) :
    p = s.pc ∧ t = s.raise c ∧ (s.fetch = .error c ∨ ∃ i, s.fetch = .ok i ∧ ExecFault s i c) := by
  have hraise {c' : Cause} (hc : (s.raise c').run = .faulted c p) : c' = c ∧ s.pc = p := Run.faulted.inj hc
  obtain ⟨hrun, ⟨c', hfetch, rfl⟩ | ⟨i, hfetch, hexec⟩⟩ := step_next_cases h
  · obtain ⟨rfl, rfl⟩ := hraise ht
    exact ⟨rfl, rfl, .inl hfetch⟩
  obtain ⟨c', hfault, rfl⟩ | heffect := exec_next_cases hexec
  · obtain ⟨rfl, rfl⟩ := hraise ht
    exact ⟨rfl, rfl, .inr ⟨i, hfetch, hfault⟩⟩
  · exact absurd ht (heffect.run_ne_faulted hrun c p)

/-- Settles O49: a step that latches a fault is a raise. -/
theorem faultingStepWritesOnlyRun : Obligations.FaultingStepWritesOnlyRun := by
  intro s t c p h ht
  obtain ⟨hp, hraise, -⟩ := step_faulted_cases h ht
  exact ⟨hp, hraise⟩

/-- Settles O54: past memory a fetch raises at pc itself or at the first operand address that is no cell; a fetched CALL
ends inside memory, so the one without a return address stands at 254. -/
theorem outOfBoundsOnlyInThreeWays : Obligations.OutOfBoundsOnlyInThreeWays := by
  rintro s t a p ⟨-, hpc, -⟩ h ht
  obtain ⟨-, -, hfetch | ⟨i, hfetch, hfault⟩⟩ := step_faulted_cases h ht
  · obtain ⟨hge, hc⟩ | ⟨-, -, hc⟩ | ⟨hlt, m, k, hm, -, hk, hend, hc⟩ := State.fetch_error hfetch
    · obtain rfl := Cause.addressOutOfBounds.inj hc
      exact ⟨by omega, .inl (by omega)⟩
    · cases hc
    · exact ⟨Cause.addressOutOfBounds.inj hc, .inr (.inl ⟨hlt, m, hm.symm, by omega⟩)⟩
  · obtain ⟨b, -, -, hc, -⟩ | ⟨r, rfl, -, hge, hc⟩ := hfault
    · cases hc
    · obtain ⟨hfits, -⟩ := State.fetch_ok hfetch
      have hlen : (Instr.call r).length = 2 := rfl
      obtain rfl := Cause.addressOutOfBounds.inj hc
      exact ⟨by omega, .inr (.inr ⟨by omega, r, hfetch⟩)⟩

/-! ### The invariant -/

/-- Past the end of a fetched instruction pc is that end as a number: it is at most 256, so nothing wraps (R26, D3). -/
theorem pc_toNat_of_fetch {s t : State} {i : Instr} (hfetch : s.fetch = .ok i)
    (hpc : t.pc = s.pc + BitVec.ofNat 9 i.length) : t.pc.toNat = s.pc.toNat + i.length ∧ t.pc.toNat ≤ 256 := by
  obtain ⟨hfits, -⟩ := State.fetch_ok hfetch
  have hend : t.pc.toNat = s.pc.toNat + i.length := by
    rw [hpc]
    exact State.advance_pc_toNat (by omega)
  exact ⟨hend, hend ▸ hfits⟩

/-- Settles O50: a fetched instruction ends inside memory, so the advance past it does not wrap. -/
theorem defaultAdvanceNeverWraps : Obligations.DefaultAdvanceNeverWraps := by
  intro s t i h hfetch hi hnofault
  obtain ⟨c, rfl⟩ | ⟨i', hfetch', heffect⟩ := step_effect_cases h
  · exact absurd rfl (hnofault c s.pc)
  · obtain rfl : i' = i := Except.ok.inj (hfetch'.symm.trans hfetch)
    exact pc_toNat_of_fetch hfetch (heffect.pc_eq hi)

/-- Settles O51: the reset state lists no cell, stands at 0 and is Running. -/
theorem resetMeetsInvariant : Obligations.ResetMeetsInvariant := ⟨Memory.reset_wf, Nat.zero_le _, trivial⟩

theorem step_mem_wf {s t : State} (h : step s = .next t) (hwf : Memory.wf s.mem) : Memory.wf t.mem := by
  obtain ⟨c, rfl⟩ | ⟨i, -, heffect⟩ := step_effect_cases h
  · exact hwf
  obtain hmem | ⟨-, v, hmem⟩ := heffect.mem_cases
  · exact hmem ▸ hwf
  · exact hmem ▸ Memory.set_wf v hwf s.decSp.sp.isLt

theorem step_pc_le {s t : State} (h : step s = .next t) (hpc : s.pc.toNat ≤ 256) : t.pc.toNat ≤ 256 := by
  obtain ⟨c, rfl⟩ | ⟨i, hfetch, heffect⟩ := step_effect_cases h
  · exact hpc
  have hend : (∃ v : Byte, t.pc = v.setWidth 9) ∨ t.pc = s.pc + BitVec.ofNat 9 i.length := by
    cases hi : isTransfer i with
    | true => exact heffect.pc_cases_of_isTransfer hi
    | false => exact .inr (heffect.pc_eq hi)
  obtain ⟨v, hv⟩ | hadvance := hend
  · rw [hv, jumpTarget_toNat]
    exact v.isLt.le
  · exact (pc_toNat_of_fetch hfetch hadvance).2

/-- A fault that a step latches carries an info its cause allows (R92, R96, R97). -/
theorem step_cause_legal {s t : State} {c : Cause} {p : PcWord} (hInv : s.Inv) (h : step s = .next t)
    (ht : t.run = .faulted c p) : c.legal := by
  have hbounds (a : Nat) (hc : c = .addressOutOfBounds a) : a = 256 :=
    (outOfBoundsOnlyInThreeWays s t a p hInv h (hc ▸ ht)).1
  obtain ⟨-, -, hfetch | ⟨i, -, hfault⟩⟩ := step_faulted_cases h ht
  · obtain ⟨-, rfl⟩ | ⟨-, hnone, rfl⟩ | ⟨-, -, -, -, -, -, -, rfl⟩ := State.fetch_error hfetch
    · exact hbounds _ rfl
    · exact hnone
    · exact hbounds _ rfl
  · obtain ⟨b, -, hbad, rfl, -⟩ | ⟨r, -, -, -, rfl⟩ := hfault
    · exact hbad
    · exact hbounds _ rfl

/-- Settles O52: memory stays canonical, pc stays an address or 256, and a fault latched by the step is legal. -/
theorem stepKeepsInvariant : Obligations.StepKeepsInvariant := by
  intro s t hInv h
  have ⟨hwf, hpc, _⟩ := hInv
  refine ⟨step_mem_wf h hwf, step_pc_le h hpc, ?_⟩
  cases ht : t.run with
  | running | halted => trivial
  | faulted c p =>
    obtain ⟨hp, hraise, -⟩ := step_faulted_cases h ht
    exact ⟨hp.trans (congrArg State.pc hraise).symm, step_cause_legal hInv h ht⟩

/-- Settles O53: the launched state is the reset state with a canonical memory, and every step keeps the invariant. -/
theorem launchedRunsMeetInvariant : Obligations.LaunchedRunsMeetInvariant := by
  intro img n s t hlaunch hrun
  obtain ⟨m, hwf, rfl⟩ := State.launch_ok hlaunch
  obtain ⟨-, hpc, hlegal⟩ := resetMeetsInvariant
  have hInv : State.Inv { State.reset with mem := m } := ⟨hwf, hpc, hlegal⟩
  exact stepsTo_induct stepKeepsInvariant n _ t hInv hrun

/-! ### A run that stays where it is -/

/-- A state that steps to itself is every state of its run. -/
theorem stepsTo_of_step_self {n : Nat} {s t : State} (h : step s = .next s) (hrun : stepsTo n s t) : t = s :=
  stepsTo_induct (P := (· = s)) (fun _ _ hu hstep => Host.Outcome.next.inj ((hu ▸ hstep).symm.trans h)) n s t rfl hrun

/-- Settles O57: the jump writes pc with the value it has, so the state steps to itself. -/
theorem jumpToItselfRunsForever : Obligations.JumpToItselfRunsForever := by
  intro s r hrun hp hop hr htarget
  have hr8 : (s.byteAt (s.pc.toNat + 1)).toNat < 8 := hr ▸ r.isLt
  obtain rfl : ⟨_, hr8⟩ = r := Fin.ext hr
  have hpc : (s.reg ⟨_, hr8⟩).setWidth 9 = s.pc := BitVec.eq_of_toNat_eq ((jumpTarget_toNat _).trans htarget)
  have hfits : s.pc.toNat + 1 < 256 := by omega
  have hself : step s = .next s := calc
    step s = exec (.jmp _) s := step_of_fetch hrun (State.fetch_of_opcode (m := .jmp) hop hfits)
    _ = .next (s.jumpTo (s.reg ⟨_, hr8⟩)) := exec_jmp s hr8
    _ = .next s := by rw [State.jumpTo_eq, hpc]
  have hrunning : ∀ n t, stepsTo n s t → t.run = .running := fun n t ht => stepsTo_of_step_self hself ht ▸ hrun
  exact ⟨runsForever_iff_running.mpr hrunning, fun n t ht c p => by simp [hrunning n t ht]⟩

/-! ### What no program can observe -/

/-- G and L are read by no step (R28). -/
theorem step_blindGL {s s' t : State} (hs : s.blindGL = s'.blindGL) (h : step s = .next t) :
    ∃ t', step s' = .next t' ∧ t.blindGL = t'.blindGL := by
  obtain ⟨f, rfl, he⟩ := State.blindGL_eq_iff.mp hs
  have hsame : (s.setFlags f).fetch = s.fetch := rfl
  obtain ⟨hrun, ⟨c, hfetch, rfl⟩ | ⟨i, hfetch, hexec⟩⟩ := step_next_cases h
  · exact ⟨_, step_of_fetch_error hrun (hsame.trans hfetch), State.blindGL_eq_iff.mpr ⟨f, rfl, he⟩⟩
  · obtain ⟨t', hexec', ht⟩ := exec_blindGL hs hexec
    exact ⟨t', (step_of_fetch (s := s.setFlags f) hrun (hsame.trans hfetch)).trans hexec', ht⟩

/-- Settles O42: the two runs agree but for G and L after every step. -/
theorem greaterAndLessAreUnobservable : Obligations.GreaterAndLessAreUnobservable := by
  intro n
  induction n with
  | zero =>
    rintro s s' t hs rfl
    exact ⟨s', rfl, hs⟩
  | succ n ih =>
    rintro s s' t hs ⟨u, hstep, hrest⟩
    obtain ⟨u', hstep', hu⟩ := step_blindGL hs hstep
    obtain ⟨t', hrest', ht⟩ := ih u u' t hu hrest
    exact ⟨t', ⟨u', hstep', hrest'⟩, ht⟩

/-- The state with bytes put before all that OUT holds. -/
def State.prependOut (w : List Byte) (s : State) : State := { s with out := w ++ s.out }

theorem State.prependOut_blindOut (s : State) : s.blindOut.prependOut s.out = s := by
  simp [State.prependOut, State.blindOut]

theorem State.emit_prependOut (w : List Byte) (s : State) (v : Byte) :
    (s.prependOut w).emit v = (s.emit v).prependOut w := by
  simp [State.prependOut, State.emit, List.append_assoc]

theorem State.jumpIf_prependOut (w : List Byte) (s : State) (taken : Bool) (a : Fin 8) :
    (s.prependOut w).jumpIf taken a = (s.jumpIf taken a).prependOut w := by
  cases taken <;> rfl

/-- Bytes put before OUT's stay before OUT's, and nothing else of an instruction depends on them (R31). -/
theorem exec_prependOut (w : List Byte) {i : Instr} {s t : State} (h : exec i s = .next t) :
    exec i (s.prependOut w) = .next (t.prependOut w) := by
  have hφ : ∀ c, (s.prependOut w).raise c = (s.raise c).prependOut w := fun _ => rfl
  cases i with
  | hlt => rw [exec_hlt] at h ⊢; cases h; rfl
  | ret => rw [exec_ret] at h ⊢; cases h; rfl
  | prn =>
    exact State.withReg_map (.prependOut w) hφ
      (fun a => congrArg (fun u => Except.ok (u.advance 2)) (s.emit_prependOut w (s.reg a))) h
  | ldi | jmp => exact State.withReg_map (.prependOut w) hφ (fun _ => rfl) h
  | push => exact State.withReg_map (.prependOut w) hφ (fun _ => by simp only [State.pushByte_eq]; rfl) h
  | pop => exact State.withReg_map (.prependOut w) hφ (fun _ => by simp only [State.popLoad_eq]; rfl) h
  | mul | add | cmp => exact State.withRegs_map (.prependOut w) hφ (fun _ _ => rfl) h
  | jeq | jne =>
    exact State.withReg_map (.prependOut w) hφ (fun a => congrArg Except.ok (s.jumpIf_prependOut w _ a)) h
  | call =>
    refine State.withReg_map (.prependOut w) hφ (fun _ => ?_) h
    have hra : (s.prependOut w).returnAddress = s.returnAddress := rfl
    rw [hra]
    cases s.returnAddress with
    | error c => rfl
    | ok ra => simp only [State.pushByte_eq]; rfl

theorem step_prependOut (w : List Byte) {s t : State} (h : step s = .next t) :
    step (s.prependOut w) = .next (t.prependOut w) := by
  have hsame : (s.prependOut w).fetch = s.fetch := rfl
  obtain ⟨hrun, ⟨c, hfetch, rfl⟩ | ⟨i, hfetch, hexec⟩⟩ := step_next_cases h
  · exact step_of_fetch_error hrun (hsame.trans hfetch)
  · exact (step_of_fetch (s := s.prependOut w) hrun (hsame.trans hfetch)).trans (exec_prependOut w hexec)

/-- Settles O43: both steps are the one step from the state with OUT emptied, each behind its own OUT. -/
theorem outputIsNeverRead : Obligations.OutputIsNeverRead := by
  intro s s' t hs h
  obtain ⟨hrun, -⟩ := step_next_cases h
  obtain ⟨u, hu⟩ := exists_step_of_running (s := s.blindOut) hrun
  have hbehind (r : State) (hr : step r.blindOut = .next u) : step r = .next (u.prependOut r.out) := by
    simpa only [State.prependOut_blindOut] using step_prependOut r.out hr
  obtain rfl : t = u.prependOut s.out := Host.Outcome.next.inj (h.symm.trans (hbehind s hu))
  exact ⟨_, hbehind s' (hs ▸ hu), rfl⟩

end Sys2Proof.Machine
